-- ==== Sys2Proof/Word.lean ====
section
/-! DEFINITION. The machine's word and byte (00_scope.md R10). -/

namespace Sys2Proof

/-- A register value, a memory cell, an address or an instruction word: "unsigned 16-bit cells" (R10). -/
abbrev Word := BitVec 16

/-- A character code or a console byte (00_scope.md R16). -/
abbrev Byte := BitVec 8

end Sys2Proof
end

