-- ==== Sys2Proof/Syntax.lean ====
section
/-! DEFINITION. The decoded instructions of 30_encoding.md R71: one constructor for each row of
spec/opcode_table.json. ADD and AND have a constructor for each operand form, TRAP one for each vector, and the three
causes of Invalid one each, with the offending word (log 22). -/

namespace Sys2Proof

/-- A general register, "an element of a type with eight values" (10_state.md R22). -/
inductive Reg where
  | r0 | r1 | r2 | r3 | r4 | r5 | r6 | r7
deriving DecidableEq, Repr

/-- The decoded instructions. Offsets and immediates are "pre-sign-extended to 16 bits" (30_encoding.md R63, R71). -/
inductive Instr where
  /-- ADD, register form (R100). -/
  | addReg (dr sr1 sr2 : Reg)
  /-- ADD, immediate form (R101). -/
  | addImm (dr sr1 : Reg) (imm16 : Word)
  /-- AND, register form (R102). -/
  | andReg (dr sr1 sr2 : Reg)
  /-- AND, immediate form (R103). -/
  | andImm (dr sr1 : Reg) (imm16 : Word)
  /-- NOT (R104). -/
  | not (dr sr : Reg)
  /-- BR with the mask n z p, n in the high bit (R110). -/
  | br (nzp : BitVec 3) (off9 : Word)
  /-- JMP; RET is JMP R7 (R111). -/
  | jmp (baseR : Reg)
  /-- JSR (R112). -/
  | jsr (off11 : Word)
  /-- JSRR (R113). -/
  | jsrr (baseR : Reg)
  /-- LD (R120). -/
  | ld (dr : Reg) (off9 : Word)
  /-- LDI (R121). -/
  | ldi (dr : Reg) (off9 : Word)
  /-- LDR (R122). -/
  | ldr (dr baseR : Reg) (off6 : Word)
  /-- LEA (R123). -/
  | lea (dr : Reg) (off9 : Word)
  /-- ST (R130). -/
  | st (sr : Reg) (off9 : Word)
  /-- STI (R131). -/
  | sti (sr : Reg) (off9 : Word)
  /-- STR (R132). -/
  | str (sr baseR : Reg) (off6 : Word)
  /-- TRAP x20 (R142). -/
  | trapGetc
  /-- TRAP x21 (R143). -/
  | trapOut
  /-- TRAP x22 (R144). -/
  | trapPuts
  /-- TRAP x23 (R145). -/
  | trapIn
  /-- TRAP x24 (R146). -/
  | trapPutsp
  /-- TRAP x25 (R147). -/
  | trapHalt
  /-- Invalid: TRAP with a vector outside 0x20-0x25; `word` is the whole instruction word (R162). -/
  | trapUnknown (word : Word)
  /-- Invalid: opcode 8, the RTI encoding; `word` is the whole instruction word (R160). -/
  | rti (word : Word)
  /-- Invalid: opcode 13; `word` is the whole instruction word (R161). -/
  | reserved13 (word : Word)
deriving DecidableEq, Repr

end Sys2Proof
end

