-- ==== Sys2Proof/WellFormed.lean ====
section
/-! DEFINITION. The instructions some word encodes: each sign-extended operand is in its field's range
(30_encoding.md R63), and each Invalid carries a word of its own class (R68-R70). -/

namespace Sys2Proof

/-- `v`, read as signed, lies in lo..hi. -/
def signedIn (lo hi : Int) (v : Word) : Bool := decide (lo ≤ v.toInt) && decide (v.toInt ≤ hi)

/-- The range of imm5: -16..15 (R63). -/
def fitsImm5 (v : Word) : Bool := signedIn (-16) 15 v

/-- The range of offset6: -32..31 (R63). -/
def fitsOff6 (v : Word) : Bool := signedIn (-32) 31 v

/-- The range of PCoffset9: -256..255 (R63). -/
def fitsOff9 (v : Word) : Bool := signedIn (-256) 255 v

/-- The range of PCoffset11: -1024..1023 (R63). -/
def fitsOff11 (v : Word) : Bool := signedIn (-1024) 1023 v

/-- The word's opcode field, `w[15:12]`, is `op` (R61). -/
def hasOpcode (op : Nat) (w : Word) : Bool := w.toNat / 4096 == op

/-- The word's trap vector, `w[7:0]`, is one of the six (R68). -/
def hasKnownVector (w : Word) : Bool := decide (0x20 ≤ w.toNat % 256) && decide (w.toNat % 256 ≤ 0x25)

/-- Some instruction word encodes `i`. -/
def Instr.wellFormed : Instr → Bool
  | .addReg _ _ _ => true
  | .addImm _ _ imm => fitsImm5 imm
  | .andReg _ _ _ => true
  | .andImm _ _ imm => fitsImm5 imm
  | .not _ _ => true
  | .br _ off => fitsOff9 off
  | .jmp _ => true
  | .jsr off => fitsOff11 off
  | .jsrr _ => true
  | .ld _ off => fitsOff9 off
  | .ldi _ off => fitsOff9 off
  | .ldr _ _ off => fitsOff6 off
  | .lea _ off => fitsOff9 off
  | .st _ off => fitsOff9 off
  | .sti _ off => fitsOff9 off
  | .str _ _ off => fitsOff6 off
  | .trapGetc => true
  | .trapOut => true
  | .trapPuts => true
  | .trapIn => true
  | .trapPutsp => true
  | .trapHalt => true
  | .trapUnknown w => hasOpcode 15 w && !hasKnownVector w
  | .rti w => hasOpcode 8 w
  | .reserved13 w => hasOpcode 13 w

end Sys2Proof
end

