-- ==== Sys2Proof/Decode.lean ====
section
/-! DEFINITION. The decoder of 30_encoding.md R72, total on every word, and the encoder of R73, which writes the
reference values of R62 into the bits the decoder ignores. The field positions and opcode numbers are the spec's
decision D5, the trap vector numbers D6 (log 6). -/

namespace Sys2Proof

/-- `sext_N(v)`: the low N bits of v, their top bit copied into the bits above (00_scope.md R11). -/
def sext (n : Nat) (v : Word) : Word := (v.setWidth n).signExtend 16

/-- `zext_8` of a character code or a vector (00_scope.md R11). -/
def zextByte (b : Byte) : Word := b.setWidth 16

/-- `w[7:0]`. -/
def lowByte (w : Word) : Byte := w.extractLsb' 0 8

/-- `w[15:8]`. -/
def highByte (w : Word) : Byte := w.extractLsb' 8 8

/-- The word with high byte `hi` and low byte `lo`, written {hi, lo} in the spec (00_scope.md R9). -/
def wordOfBytes (hi lo : Byte) : Word := hi ++ lo

/-- The 3-bit number of a register (30_encoding.md R61: "Register fields are always 3 bits (values 0–7)"). -/
def Reg.toBits : Reg → BitVec 3
  | .r0 => 0#3
  | .r1 => 1#3
  | .r2 => 2#3
  | .r3 => 3#3
  | .r4 => 4#3
  | .r5 => 5#3
  | .r6 => 6#3
  | .r7 => 7#3

/-- The register a 3-bit field names; every value of the field names one. -/
def Reg.ofBits (b : BitVec 3) : Reg :=
  match b.toNat with
  | 0 => .r0
  | 1 => .r1
  | 2 => .r2
  | 3 => .r3
  | 4 => .r4
  | 5 => .r5
  | 6 => .r6
  | _ => .r7

/-- opcode, `w[15:12]`. -/
def opcodeField (w : Word) : BitVec 4 := w.extractLsb' 12 4

/-- DR or the stores' SR, `w[11:9]`. -/
def regField11 (w : Word) : Reg := Reg.ofBits (w.extractLsb' 9 3)

/-- SR1, NOT's SR or BaseR, `w[8:6]`. -/
def regField8 (w : Word) : Reg := Reg.ofBits (w.extractLsb' 6 3)

/-- SR2, `w[2:0]`. -/
def regField2 (w : Word) : Reg := Reg.ofBits (w.extractLsb' 0 3)

/-- n, z and p as one 3-bit number, `w[11:9]`. -/
def nzpField (w : Word) : BitVec 3 := w.extractLsb' 9 3

/-- The immediate selector, `w[5]` (R64). -/
def bit5 (w : Word) : Bool := w.getLsbD 5

/-- The JSR selector, `w[11]` (R65). -/
def bit11 (w : Word) : Bool := w.getLsbD 11

/-- Opcode 15 (R68): the six vectors, and Invalid for every other one. -/
def decodeTrap (w : Word) : Instr :=
  match (lowByte w).toNat with
  | 0x20 => .trapGetc
  | 0x21 => .trapOut
  | 0x22 => .trapPuts
  | 0x23 => .trapIn
  | 0x24 => .trapPutsp
  | 0x25 => .trapHalt
  | _ => .trapUnknown w

/-- `decode` (R72): "Pure, total, no failure path" (R60). The last arm is opcode 15, the one value of the four bits left. -/
def decode (w : Word) : Instr :=
  match (opcodeField w).toNat with
  | 0 => .br (nzpField w) (sext 9 w)
  | 1 => if bit5 w then .addImm (regField11 w) (regField8 w) (sext 5 w)
         else .addReg (regField11 w) (regField8 w) (regField2 w)
  | 2 => .ld (regField11 w) (sext 9 w)
  | 3 => .st (regField11 w) (sext 9 w)
  | 4 => if bit11 w then .jsr (sext 11 w) else .jsrr (regField8 w)
  | 5 => if bit5 w then .andImm (regField11 w) (regField8 w) (sext 5 w)
         else .andReg (regField11 w) (regField8 w) (regField2 w)
  | 6 => .ldr (regField11 w) (regField8 w) (sext 6 w)
  | 7 => .str (regField11 w) (regField8 w) (sext 6 w)
  | 8 => .rti w
  | 9 => .not (regField11 w) (regField8 w)
  | 10 => .ldi (regField11 w) (sext 9 w)
  | 11 => .sti (regField11 w) (sext 9 w)
  | 12 => .jmp (regField8 w)
  | 13 => .reserved13 w
  | 14 => .lea (regField11 w) (sext 9 w)
  | _ => decodeTrap w

/-- The word of an instruction (R62, R73): the fields in their places, and the reference values in the ignored bits. -/
def encode : Instr → Word
  | .addReg dr sr1 sr2 => 0b0001#4 ++ dr.toBits ++ sr1.toBits ++ 0b000#3 ++ sr2.toBits
  | .addImm dr sr1 imm => 0b0001#4 ++ dr.toBits ++ sr1.toBits ++ 1#1 ++ imm.setWidth 5
  | .andReg dr sr1 sr2 => 0b0101#4 ++ dr.toBits ++ sr1.toBits ++ 0b000#3 ++ sr2.toBits
  | .andImm dr sr1 imm => 0b0101#4 ++ dr.toBits ++ sr1.toBits ++ 1#1 ++ imm.setWidth 5
  | .not dr sr => 0b1001#4 ++ dr.toBits ++ sr.toBits ++ 0b111111#6
  | .br nzp off => 0b0000#4 ++ nzp ++ off.setWidth 9
  | .jmp baseR => 0b1100#4 ++ 0b000#3 ++ baseR.toBits ++ 0b000000#6
  | .jsr off => 0b0100#4 ++ 1#1 ++ off.setWidth 11
  | .jsrr baseR => 0b0100#4 ++ 0b000#3 ++ baseR.toBits ++ 0b000000#6
  | .ld dr off => 0b0010#4 ++ dr.toBits ++ off.setWidth 9
  | .ldi dr off => 0b1010#4 ++ dr.toBits ++ off.setWidth 9
  | .ldr dr baseR off => 0b0110#4 ++ dr.toBits ++ baseR.toBits ++ off.setWidth 6
  | .lea dr off => 0b1110#4 ++ dr.toBits ++ off.setWidth 9
  | .st sr off => 0b0011#4 ++ sr.toBits ++ off.setWidth 9
  | .sti sr off => 0b1011#4 ++ sr.toBits ++ off.setWidth 9
  | .str sr baseR off => 0b0111#4 ++ sr.toBits ++ baseR.toBits ++ off.setWidth 6
  | .trapGetc => 0xF020#16
  | .trapOut => 0xF021#16
  | .trapPuts => 0xF022#16
  | .trapIn => 0xF023#16
  | .trapPutsp => 0xF024#16
  | .trapHalt => 0xF025#16
  | .trapUnknown w => w
  | .rti w => w
  | .reserved13 w => w

/-- The instruction the decoder reads from a word given as spec/opcode_table.json numbers its bits. Every instruction is
one word of 16 bits (R74), so a longer one is none. -/
def decodeTableWord (nbits w : Nat) : Option Instr :=
  if nbits ≤ 16 then some (decode (BitVec.ofNat 16 (w % 2 ^ nbits))) else none

end Sys2Proof
end

