-- ==== Sys2Proof/Config.lean ====
section
/-! DEFINITION. The implementation parameters of 00_scope.md R8, and the values the spec leaves open
(its OPEN parameters and the host's draws), which are constants without a body. -/

namespace Sys2Proof.Config

/-- The value PC takes at reset, "the fixed load address `0x3000`" (10_state.md R30). -/
def pcReset : Word := 0x3000#16

/-- The address of the keyboard status cell (20_memory.md R44; the spec's decision D1, log 3). PRESUMED, unsafe. -/
def kbsrAddr : Word := 0xFE00#16

/-- The address of the keyboard data cell (20_memory.md R44; the spec's decision D2, log 3). PRESUMED, unsafe. -/
def kbdrAddr : Word := 0xFE02#16

/-- The positive flag (10_state.md R25; the spec's decision D3, log 5). PRESUMED, safe. -/
def flagP : Word := 0x0001#16

/-- The zero flag (10_state.md R25; D3, log 5). PRESUMED, safe. -/
def flagZ : Word := 0x0002#16

/-- The negative flag (10_state.md R25; D3, log 5). PRESUMED, safe. -/
def flagN : Word := 0x0004#16

/-- `COND_RESET` (10_state.md R30; the spec's decision D4, log 4). PRESUMED, unsafe. -/
def condReset : Word := flagZ

/-- `TRAP_LINKS_R7`: whether TRAP writes R7 (45_trap.md R140; the spec's decision D7, log 7). DESIGN CHOICE, unsafe. -/
def trapLinksR7 : Bool := false

/-- `TRAP_SETS_CC`: whether GETC and IN write COND (45_trap.md R140; the spec's decision D8, log 8). DESIGN CHOICE, unsafe. -/
def trapSetsCC : Bool := false

/-- `JSRR_BASE_READ_FIRST`: whether JSRR reads BaseR before it writes R7 (42_control.md R113; the spec's decision D9,
log 9). DESIGN CHOICE, unsafe. -/
def jsrrBaseReadFirst : Bool := false

/-- `IN_PROMPT`, the bytes IN writes first (45_trap.md R145; OPEN, D14, log 17). A free value, safe. -/
opaque inPrompt : List Byte

/-- `HALT_NOTICE`, the bytes HALT writes (45_trap.md R147; OPEN, D15, log 17). A free value, safe. -/
opaque haltNotice : List Byte

/-- `DIAG_TEXT(word, pc)` (46_invalid.md R163; OPEN, D16, log 18). A free value, safe. -/
opaque diagText : Word → Word → List Byte

/-- The host's n-th free answer to a poll (92_eei_decisions.md D11, "a draw"; log 11). A free value, safe. -/
opaque pollDraw : Nat → Bool

/-- The character of the host's n-th free answer (93_implementation_defined.md I8, "any value in 0x00-0xFF"; log 11).
A free value, safe. -/
opaque hostChar : Nat → Byte

end Sys2Proof.Config
end

