-- ==== Sys2Proof/Machine/State.lean ====
section
/-! DEFINITION. The state of 10_state.md R20, the host's side of R31 as a model records it, the reasons a step can stop,
and the state after reset (R30). -/

namespace Sys2Proof.Machine

/-- The eight general registers (10_state.md R21). PC and COND, the two other cells of the register file, are fields of
State: no instruction names them by number (R22). -/
structure Regs where
  r0 : Word
  r1 : Word
  r2 : Word
  r3 : Word
  r4 : Word
  r5 : Word
  r6 : Word
  r7 : Word
deriving DecidableEq, Repr

/-- One listed memory cell: its word address and its 16-bit value (20_memory.md R41: "The addressable unit is the 16-bit
word"; log 1). -/
abbrev MemCell := Nat × Word

/-- The memory of 65,536 cells as the list of those that do not hold 0x0000, addresses rising; an address that is not
listed reads as 0x0000, the reset contents (10_state.md R30). -/
abbrev Memory := List MemCell

/-- The Execution Engine's run state (10_state.md R28). -/
inductive RunState where
  | running
  | halted
deriving DecidableEq, Repr

/-- A keystroke the host has yet to supply: how many polls it still answers with false before the key is pending
(92_eei_decisions.md D11: "It may answer false at any time"), and its code (log 11). -/
structure Keystroke where
  delay : Nat
  code : Byte
deriving DecidableEq, Repr

/-- The input side of the host (10_state.md R31; log 11). -/
structure HostInput where
  /-- The keystrokes not yet read that are listed, oldest first. -/
  keys : List Keystroke
  /-- Whether the host never supplies anything after the listed keystrokes (92_eei_decisions.md D17). -/
  ends : Bool
  /-- The model's own counter: how many free answers of the host (Config.pollDraw, Config.hostChar) have been used. -/
  drawn : Nat
deriving DecidableEq, Repr

/-- A MalformedInstruction report: the offending word and the PC at the report (00_scope.md R15). -/
structure Diagnostic where
  word : Word
  pc : Word
deriving DecidableEq, Repr

/-- The two routines that write a string (45_trap.md R144, R146). -/
inductive StringKind where
  | puts
  | putsp
deriving DecidableEq, Repr

/-- A string routine under way: which one, and the address it reads next. The model's own, not the spec's (log 14). -/
structure StringProgress where
  kind : StringKind
  addr : Word
deriving DecidableEq, Repr

/-- The machine's state. -/
structure State where
  /-- R0-R7 (R21). -/
  regs : Regs
  /-- The program counter, a word address (R23). -/
  pc : Word
  /-- The condition-flags cell (R24). -/
  cond : Word
  /-- The memory, the two keyboard cells included (R20(b)). -/
  mem : Memory
  /-- RUNNING or HALTED (R28). -/
  run : RunState
  /-- The host's input (R31). -/
  host : HostInput
  /-- The bytes written to the console, oldest first (R31). -/
  console : List Byte
  /-- The diagnostics emitted, oldest first (R31). -/
  diags : List Diagnostic
  /-- The model's own field: the string routine that the next step goes on with, if one is under way (log 14). -/
  printing : Option StringProgress
deriving DecidableEq, Repr

/-- Why a step does not end in a next state. -/
inductive Fault where
  /-- Raised by GETC and IN when the host never supplies a character: the step waits forever and is not final
  (40_cycle.md R94(c), 92_eei_decisions.md D17; log 13). `waiting` is the state in which it waits, with IN's prompt written.
  Safe: the hardware makes no further step. -/
  | waitingForInput (waiting : State)
deriving DecidableEq, Repr

/-- Why an instruction has no meaning. -/
inductive Refusal where
  /-- Raised by an arm of exec whose instruction has no meaning yet. Safe. No arm of this model raises it. -/
  | notModelled (mnemonic : String)
deriving DecidableEq, Repr

/-- The state reset creates when `COND_RESET` is `cond` (10_state.md R30, 70_reset_and_hazards.md R190, R192). The host's
fields are the model's choice (log 12). -/
def State.resetWith (cond : Word) : State where
  regs := ⟨0, 0, 0, 0, 0, 0, 0, 0⟩
  pc := Config.pcReset
  cond := cond
  mem := []
  run := .running
  host := { keys := [], ends := false, drawn := 0 }
  console := []
  diags := []
  printing := none

/-- The machine right after reset, before any image is loaded (10_state.md R30). -/
def State.reset : State := State.resetWith Config.condReset

end Sys2Proof.Machine
end

