-- ==== Sys2Proof/Machine/Ops.lean ====
section
/-! DEFINITION. The named operations every meaning is written over: registers (00_scope.md R12), memory (20_memory.md),
the host primitives (00_scope.md R16), and the one exception (R15). -/

namespace Sys2Proof.Machine

/-- What one instruction answers. -/
abbrev Result := Host.Outcome State Fault Refusal

/-! ## Registers -/

/-- `x[r]` (00_scope.md R12). No register is hardwired (10_state.md R21). -/
def Regs.get (x : Regs) : Reg → Word
  | .r0 => x.r0
  | .r1 => x.r1
  | .r2 => x.r2
  | .r3 => x.r3
  | .r4 => x.r4
  | .r5 => x.r5
  | .r6 => x.r6
  | .r7 => x.r7

/-- `x[r] <- v` (00_scope.md R12). -/
def Regs.set (x : Regs) (r : Reg) (v : Word) : Regs :=
  match r with
  | .r0 => { x with r0 := v }
  | .r1 => { x with r1 := v }
  | .r2 => { x with r2 := v }
  | .r3 => { x with r3 := v }
  | .r4 => { x with r4 := v }
  | .r5 => { x with r5 := v }
  | .r6 => { x with r6 := v }
  | .r7 => { x with r7 := v }

/-- The value of a general register. -/
def State.reg (s : State) (r : Reg) : Word := s.regs.get r

/-- The state with a general register written. -/
def State.setReg (s : State) (r : Reg) (v : Word) : State := { s with regs := s.regs.set r v }

/-- `pc <- target` (00_scope.md R12). -/
def State.setPc (s : State) (target : Word) : State := { s with pc := target }

/-! ## Memory cells -/

/-- The value of the cell at an address; one that is not listed holds 0x0000 (10_state.md R30). -/
def Memory.read (m : Memory) (a : Nat) : Word :=
  match m with
  | [] => 0
  | (b, w) :: rest => if b = a then w else Memory.read rest a

/-- A memory that does not list `a`, with (a, v) put before the first entry of a higher address. -/
def Memory.insert (m : Memory) (a : Nat) (v : Word) : Memory :=
  match m with
  | [] => [(a, v)]
  | (b, w) :: rest => if a < b then (a, v) :: (b, w) :: rest else (b, w) :: Memory.insert rest a v

/-- The memory with the cell at `a` set to `v`; a cell set to 0x0000 is no longer listed. -/
def Memory.write (m : Memory) (a : Nat) (v : Word) : Memory :=
  if v = 0#16 then m.filter (fun c => c.1 != a) else Memory.insert (m.filter (fun c => c.1 != a)) a v

/-- The canonical form: addresses strictly rising and inside the address space, no entry equal to the reset contents. -/
abbrev Memory.wf (m : Memory) : Prop :=
  m.Pairwise (fun c d => c.1 < d.1) ∧ ∀ c ∈ m, c.1 < 65536 ∧ c.2 ≠ 0#16

/-- `M[a]`, the cell without any side effect (00_scope.md R13). -/
def State.cell (s : State) (a : Word) : Word := s.mem.read a.toNat

/-- `M[a] <- v`, the cell written directly (00_scope.md R13). -/
def State.setCell (s : State) (a v : Word) : State := { s with mem := s.mem.write a.toNat v }

/-! ## The host (00_scope.md R16) -/

/-- `HostPollKey()` and, after a true answer, the `HostReadChar()` that takes the pending character (92_eei_decisions.md
D11, 60_exceptions.md R184). `some c` is the answer true with the character c, `none` the answer false. When no keystroke is
listed the answer is false if the host's input has ended, and the host's next free draw if not (log 11). -/
def HostInput.poll (h : HostInput) : Option Byte × HostInput :=
  match h.keys with
  | k :: ks =>
    if k.delay = 0 then (some k.code, { h with keys := ks })
    else (none, { h with keys := { k with delay := k.delay - 1 } :: ks })
  | [] =>
    if h.ends then (none, h)
    else if Config.pollDraw h.drawn then (some (Config.hostChar h.drawn), { h with drawn := h.drawn + 1 })
    else (none, { h with drawn := h.drawn + 1 })

/-- `HostReadChar()` from GETC and IN: it waits for the next character, so a keystroke's delay does not matter. `none`: the
host never supplies one (92_eei_decisions.md D17). When no keystroke is listed and the input has not ended, the character is
the host's next free one (log 11). -/
def HostInput.readChar (h : HostInput) : Option (Byte × HostInput) :=
  match h.keys with
  | k :: ks => some (k.code, { h with keys := ks })
  | [] => if h.ends then none else some (Config.hostChar h.drawn, { h with drawn := h.drawn + 1 })

/-- `HostWriteText(bs)`: each byte to the console, in order, raw (00_scope.md R16, 92_eei_decisions.md D19). -/
def State.writeText (s : State) (bs : List Byte) : State := { s with console := s.console ++ bs }

/-- `HostWrite(b)` (00_scope.md R16). -/
def State.writeByte (s : State) (b : Byte) : State := s.writeText [b]

/-- `HostDiag(word, pc)` (00_scope.md R16). -/
def State.hostDiag (s : State) (word pc : Word) : State := { s with diags := s.diags ++ [⟨word, pc⟩] }

/-- The text of a report, in the host's own words (46_invalid.md R163, log 18). -/
def diagnosticText (d : Diagnostic) : List Byte := Config.diagText d.word d.pc

/-! ## Reads and writes -/

/-- `KeyboardPoll()` (20_memory.md R45): the whole status cell becomes 0x8000 or 0x0000 (the spec's decision D10, log 10). -/
def State.keyboardPoll (s : State) : State :=
  match s.host.poll with
  | (some c, h) => ({ s with host := h }.setCell Config.kbsrAddr 0x8000#16).setCell Config.kbdrAddr (zextByte c)
  | (none, h) => { s with host := h }.setCell Config.kbsrAddr 0x0000#16

/-- The state a read at `a` leaves: a read of the status cell polls first, any other read changes nothing (20_memory.md
R43). -/
def State.afterRead (s : State) (a : Word) : State :=
  if a = Config.kbsrAddr then s.keyboardPoll else s

/-- `MemRead(a)` (20_memory.md R43): the value read, and the state it leaves. Every read goes through it: fetch, loads,
pointers and strings (R48; the spec's decision D12, log 15). -/
def State.memRead (s : State) (a : Word) : Word × State :=
  ((s.afterRead a).cell a, s.afterRead a)

/-- `MemWrite(a, 1, v)` (20_memory.md R47): a plain write at every address. -/
def State.memWrite (s : State) (a v : Word) : State := s.setCell a v

/-! ## The exception and the end of a run -/

/-- `raise MalformedInstruction(word, pc)` (00_scope.md R15), with the PC register at the report. It saves nothing, changes
no mode and transfers no control (60_exceptions.md R170, R174): execution continues with the next instruction. -/
def State.raiseMalformed (s : State) (word : Word) : State := s.hostDiag word s.pc

/-- The return from an exception: there is no mode, mask or saved register to restore, and a routine returns by finishing
its step (60_exceptions.md R175). The word a reference LC-3 uses for it only reports (46_invalid.md R160). -/
def State.returnFromException (s : State) (word : Word) : State := s.raiseMalformed word

/-- `halt()` (00_scope.md R15). -/
def State.halt (s : State) : State := { s with run := .halted }

end Sys2Proof.Machine
end

