-- ==== Sys2Proof/Machine/Flags.lean ====
section
/-! DEFINITION. The condition flags: `SetCC` (00_scope.md R14) and BR's test of COND (42_control.md R110). -/

namespace Sys2Proof.Machine

/-- The flag of a value: "value `0` → ZERO flag; high bit set → NEGATIVE flag; otherwise → POSITIVE flag" (R14). -/
def flagOf (v : Word) : Word :=
  if v = 0x0000#16 then Config.flagZ else if v.getLsbD 15 then Config.flagN else Config.flagP

/-- `SetCC(v)` (R14). -/
def State.setCC (s : State) (v : Word) : State := { s with cond := flagOf v }

/-- `x[DR] <- v; SetCC(x[DR])`, the end of every instruction that sets COND (10_state.md R26). -/
def State.setResult (s : State) (dr : Reg) (v : Word) : State := (s.setReg dr v).setCC v

/-- `(zext_3(nzp) & COND) != 0`, BR's condition (R110). -/
def branchTaken (nzp : BitVec 3) (s : State) : Bool := (nzp.setWidth 16 &&& s.cond) != 0#16

end Sys2Proof.Machine
end

