-- ==== Sys2Proof/Machine/Operands.lean ====
section
/-! DEFINITION. The operand forms: the two second operands of ADD and AND, and the three ways an address is formed
(43_load.md R124). Every sum wraps mod 2^16 (20_memory.md R42). PC is the incremented PC (40_cycle.md R90). -/

namespace Sys2Proof.Machine

/-- The second operand of ADD and AND (30_encoding.md R64). -/
inductive Src where
  /-- `x[SR2]`. -/
  | reg (r : Reg)
  /-- `imm16`, already sign-extended (R63). -/
  | imm (v : Word)
deriving DecidableEq, Repr

/-- The value of a second operand. -/
def Src.value (o : Src) (s : State) : Word :=
  match o with
  | .reg r => s.reg r
  | .imm v => v

/-- PC-relative: `(PC + off) mod 2^16` (R110, R112, R120, R123, R130). -/
def pcRelative (off : Word) (s : State) : Word := s.pc + off

/-- Base plus offset: `(x[BaseR] + off6) mod 2^16` (R122, R132). -/
def baseOffset (baseR : Reg) (off : Word) (s : State) : Word := s.reg baseR + off

/-- PC-relative indirect: the pointer word at the PC-relative address, and the state its read leaves (R121, R131). -/
def pointerAt (off : Word) (s : State) : Word × State := s.memRead (pcRelative off s)

end Sys2Proof.Machine
end

