-- ==== Sys2Proof/Machine/Control.lean ====
section
/-! DEFINITION. BR, JMP, JSR and JSRR (42_control.md). None writes COND, and a target may be any address (R114). -/

namespace Sys2Proof.Machine

/-- BR (R110). -/
def execBr (nzp : BitVec 3) (off : Word) (s : State) : Result :=
  .next (if branchTaken nzp s then s.setPc (pcRelative off s) else s)

/-- JMP (R111). -/
def execJmp (baseR : Reg) (s : State) : Result := .next (s.setPc (s.reg baseR))

/-- JSR: "The link is written first. The target uses the same incremented PC" (R112). -/
def execJsr (off : Word) (s : State) : Result := .next ((s.setReg .r7 s.pc).setPc (pcRelative off s))

/-- JSRR under the parameter `JSRR_BASE_READ_FIRST` (R113): with false, the link is written before BaseR is read. -/
def jsrrWith (baseReadFirst : Bool) (baseR : Reg) (s : State) : Result :=
  let linked := s.setReg .r7 s.pc
  .next (linked.setPc (if baseReadFirst then s.reg baseR else linked.reg baseR))

/-- JSRR (R113; the spec's decision D9, log 9). -/
def execJsrr (baseR : Reg) (s : State) : Result := jsrrWith Config.jsrrBaseReadFirst baseR s

end Sys2Proof.Machine
end

