-- ==== Sys2Proof/Machine/Invalid.lean ====
section
/-! DEFINITION. The words that decode to Invalid (46_invalid.md): each reports (word, PC) and changes nothing else. -/

namespace Sys2Proof.Machine

/-- TRAP with a vector outside 0x20-0x25 (R162): R7 is not written, since the word is no TRAP variant. -/
def execTrapUnknown (word : Word) (s : State) : Result := .next (s.raiseMalformed word)

/-- Opcode 8, the RTI encoding (R160): it restores nothing and only reports. -/
def execRti (word : Word) (s : State) : Result := .next (s.returnFromException word)

/-- Opcode 13, reserved (R161). -/
def execReserved13 (word : Word) (s : State) : Result := .next (s.raiseMalformed word)

end Sys2Proof.Machine
end

