-- ==== Sys2Proof/Machine/Load.lean ====
section
/-! DEFINITION. LD, LDI, LDR and LEA (43_load.md). -/

namespace Sys2Proof.Machine

/-- `x[DR] <- MemRead(ea); SetCC(x[DR])`, the end of every load. -/
def loadFrom (dr : Reg) (ea : Word) (s : State) : Result :=
  .next ((s.memRead ea).2.setResult dr (s.memRead ea).1)

/-- LD (R120). -/
def execLd (dr : Reg) (off : Word) (s : State) : Result := loadFrom dr (pcRelative off s) s

/-- LDI: "there are two reads, the pointer first" (R121). -/
def execLdi (dr : Reg) (off : Word) (s : State) : Result := loadFrom dr (pointerAt off s).1 (pointerAt off s).2

/-- LDR: BaseR is read before DR is written, and never modified (R122). -/
def execLdr (dr baseR : Reg) (off : Word) (s : State) : Result := loadFrom dr (baseOffset baseR off s) s

/-- LEA: "address-only, no memory access", and it sets COND in this source (R123). -/
def execLea (dr : Reg) (off : Word) (s : State) : Result := .next (s.setResult dr (pcRelative off s))

end Sys2Proof.Machine
end

