-- ==== Sys2Proof/Machine/Operate.lean ====
section
/-! DEFINITION. ADD, AND and NOT (41_operate.md). -/

namespace Sys2Proof.Machine

/-- `(a + b) mod 2^16`, then the result and its flag (R100, R101, R105). -/
def addOp (dr sr1 : Reg) (o : Src) (s : State) : Result := .next (s.setResult dr (s.reg sr1 + o.value s))

/-- `a & b`, then the result and its flag (R102, R103). -/
def andOp (dr sr1 : Reg) (o : Src) (s : State) : Result := .next (s.setResult dr (s.reg sr1 &&& o.value s))

/-- ADD, register form (R100). -/
def execAddReg (dr sr1 sr2 : Reg) (s : State) : Result := addOp dr sr1 (.reg sr2) s

/-- ADD, immediate form (R101). -/
def execAddImm (dr sr1 : Reg) (imm : Word) (s : State) : Result := addOp dr sr1 (.imm imm) s

/-- AND, register form (R102). -/
def execAndReg (dr sr1 sr2 : Reg) (s : State) : Result := andOp dr sr1 (.reg sr2) s

/-- AND, immediate form (R103). -/
def execAndImm (dr sr1 : Reg) (imm : Word) (s : State) : Result := andOp dr sr1 (.imm imm) s

/-- NOT (R104). -/
def execNot (dr sr : Reg) (s : State) : Result := .next (s.setResult dr (~~~ s.reg sr))

end Sys2Proof.Machine
end

