-- ==== Sys2Proof/Machine/Store.lean ====
section
/-! DEFINITION. ST, STI and STR (44_store.md). None writes COND (10_state.md R26). -/

namespace Sys2Proof.Machine

/-- `MemWrite(ea, 1, x[SR])`, the end of every store. -/
def storeTo (sr : Reg) (ea : Word) (s : State) : Result := .next (s.memWrite ea (s.reg sr))

/-- ST (R130). -/
def execSt (sr : Reg) (off : Word) (s : State) : Result := storeTo sr (pcRelative off s) s

/-- STI: the pointer is read through `MemRead`, "the write itself never polls" (R131). -/
def execSti (sr : Reg) (off : Word) (s : State) : Result := storeTo sr (pointerAt off s).1 (pointerAt off s).2

/-- STR (R132). -/
def execStr (sr baseR : Reg) (off : Word) (s : State) : Result := storeTo sr (baseOffset baseR off s) s

end Sys2Proof.Machine
end

