-- ==== Sys2Proof/Machine/Trap.lean ====
section
/-! DEFINITION. TRAP and its six routines (45_trap.md). No LC-3 code runs for a routine, and the next instruction is
fetched only after its end (R140). -/

namespace Sys2Proof.Machine

/-- TRAP entry under the parameter `TRAP_LINKS_R7` (R140): the return address to R7, or nothing. -/
def linkTrapWith (links : Bool) (s : State) : State := if links then s.setReg .r7 s.pc else s

/-- TRAP entry (R140, 60_exceptions.md R174; the spec's decision D7, log 7). -/
def linkTrap (s : State) : State := linkTrapWith Config.trapLinksR7 s

/-- `c <- HostReadChar(); x[0] <- zext_8(c)` under the parameter `TRAP_SETS_CC` (R142). The step waits forever if the host
never supplies a character (R94(c); log 13). -/
def readCharWith (setsCC : Bool) (s : State) : Result :=
  match s.host.readChar with
  | none => .fault (.waitingForInput s)
  | some (c, h) =>
    let t := { s with host := h }.setReg .r0 (zextByte c)
    .next (if setsCC then t.setCC (zextByte c) else t)

/-- The character read of GETC and IN (R142, R145; the spec's decision D8, log 8). -/
def readCharToR0 (s : State) : Result := readCharWith Config.trapSetsCC s

/-- What PUTS writes for one word: its low byte (R144; the spec's decision D13, log 16). -/
def putsBytes (w : Word) : List Byte := [lowByte w]

/-- What PUTSP writes for one word: "low byte first, high byte only if non-zero" (R146). -/
def putspBytes (w : Word) : List Byte := if highByte w = 0#8 then [lowByte w] else [lowByte w, highByte w]

/-- What a string routine writes for one word. -/
def StringKind.bytes : StringKind → Word → List Byte
  | .puts => putsBytes
  | .putsp => putspBytes

/-- The loop of PUTS and PUTSP from the address `a` (R144, R146): read a word; stop if it is 0x0000; else write its bytes
and go on at the next address, mod 2^16. After `fuel` reads the routine is left under way at the address it reads next, and
the next step goes on with it (log 14): it stops nowhere. -/
def stringLoop (kind : StringKind) (fuel : Nat) (a : Word) (s : State) : State :=
  match fuel with
  | 0 => { s with printing := some ⟨kind, a⟩ }
  | fuel + 1 =>
    if (s.memRead a).1 = 0x0000#16 then (s.memRead a).2
    else stringLoop kind fuel (a + 1) ((s.memRead a).2.writeText (kind.bytes (s.memRead a).1))

/-- How many words one step reads at most: enough for every string whose end the listed answers of the host decide, since a
lap of the address space reads KBSR_ADDR once, and goes on past it only if a keystroke was pending (log 14). -/
def stringFuel (s : State) : Nat := (s.host.keys.length + 2) * 65536

/-- A string routine from the address `a`. -/
def stringFrom (kind : StringKind) (a : Word) (s : State) : Result := .next (stringLoop kind (stringFuel s) a s)

/-- The next part of a string routine under way: no fetch, no increment of PC, the loop from where it stood (log 14). -/
def resumeString (p : StringProgress) (s : State) : Result := stringFrom p.kind p.addr { s with printing := none }

/-- GETC (R142). -/
def execTrapGetc (s : State) : Result := readCharToR0 (linkTrap s)

/-- OUT (R143). -/
def execTrapOut (s : State) : Result := .next ((linkTrap s).writeByte (lowByte ((linkTrap s).reg .r0)))

/-- PUTS (R144). -/
def execTrapPuts (s : State) : Result := stringFrom .puts ((linkTrap s).reg .r0) (linkTrap s)

/-- IN: the prompt is written before the read, and the character is not echoed (R145). -/
def execTrapIn (s : State) : Result := readCharToR0 ((linkTrap s).writeText Config.inPrompt)

/-- PUTSP (R146). -/
def execTrapPutsp (s : State) : Result := stringFrom .putsp ((linkTrap s).reg .r0) (linkTrap s)

/-- HALT (R147). -/
def execTrapHalt (s : State) : Result := .next ((linkTrap s).writeText Config.haltNotice).halt

end Sys2Proof.Machine
end

