-- ==== Sys2Proof/Machine/Fetch.lean ====
section
/-! DEFINITION. The fetch and the increment of PC (40_cycle.md R90 (1) and (2)), and a word placed where the next fetch
reads it. -/

namespace Sys2Proof.Machine

/-- The word at PC, read through `MemRead`, and the state with PC increased by 1 mod 2^16 (R90). -/
def fetch (s : State) : Word × State := ((s.memRead s.pc).1, (s.memRead s.pc).2.setPc (s.pc + 1))

/-- `s` set up so that its next step fetches the word `w` (log 21): the run state RUNNING, no string routine under way, and
the word in the cell at PC. A fetch at KBSR_ADDR reads what the poll wrote there, so from that PC the word goes to the fixed
load address. -/
def placeFetchWord (s : State) (w : Word) : State :=
  let at' := if s.pc = Config.kbsrAddr then Config.pcReset else s.pc
  ({ s with pc := at', run := .running, printing := none }).setCell at' w

end Sys2Proof.Machine
end

