-- ==== Sys2Proof/Machine/Loader.lean ====
section
/-! DEFINITION. The image loader (70_reset_and_hazards.md R193-R196), which runs before the first step. -/

namespace Sys2Proof.Machine

/-- Why no run starts (R196). All but `truncatedHeader` and `noImage` are the spec's decision D18 (log 19). -/
inductive LoadError where
  /-- The image has fewer than 2 bytes. -/
  | truncatedHeader
  /-- The image has an odd byte count. -/
  | oddLength
  /-- The image's words would pass address 0xFFFF. -/
  | pastEnd
  /-- The list of images is empty. -/
  | noImage
deriving DecidableEq, Repr

/-- The 16-bit big-endian words of a byte string; a last single byte is left out (`loadImage` refuses such an image). -/
def bigEndianWords : List Byte → List Word
  | hi :: lo :: rest => wordOfBytes hi lo :: bigEndianWords rest
  | _ => []

/-- `M[origin + i] <- ws[i]`, "direct cell write; no keyboard side effect" (R193). -/
def Memory.writeWords (m : Memory) (origin : Nat) : List Word → Memory
  | [] => m
  | w :: ws => Memory.writeWords (m.write origin w) (origin + 1) ws

/-- `load_image(bytes)` (R193), with the conditions of R196. -/
def loadImage (m : Memory) (image : List Byte) : Except LoadError Memory :=
  match image with
  | hi :: lo :: rest =>
    if rest.length % 2 = 1 then .error .oddLength
    else if 0x10000 < (wordOfBytes hi lo).toNat + rest.length / 2 then .error .pastEnd
    else .ok (m.writeWords (wordOfBytes hi lo).toNat (bigEndianWords rest))
  | _ => .error .truncatedHeader

/-- The images one after another "in argument order" (R195); the first that does not load ends it (R196). -/
def loadImages (m : Memory) : List (List Byte) → Except LoadError Memory
  | [] => .ok m
  | image :: rest =>
    match loadImage m image with
    | .ok m' => loadImages m' rest
    | .error e => .error e

/-- The state a run starts from: reset, then every image loaded in order (R190); PC stays at 0x3000 whatever the origins
(R194). -/
def boot (images : List (List Byte)) : Except LoadError State :=
  match images with
  | [] => .error .noImage
  | _ :: _ =>
    match loadImages State.reset.mem images with
    | .ok m => .ok { State.reset with mem := m }
    | .error e => .error e

end Sys2Proof.Machine
end

