-- ==== Sys2Proof/Machine/Step.lean ====
section
/-! DEFINITION. One step of the core (40_cycle.md R90, R91). -/

namespace Sys2Proof.Machine

/-- One step: fetch, increment, decode, dispatch (R90). In HALTED nothing is fetched and nothing changes (R91; log 2). While
a string routine is under way its TRAP is not complete, and the step goes on with it (log 14). -/
def step (s : State) : Host.Outcome State Fault Refusal :=
  match s.run with
  | .halted => .next s
  | .running =>
    match s.printing with
    | some p => resumeString p s
    | none => exec (decode (fetch s).1) (fetch s).2

/-- `s` with an instruction word placed where `step` fetches next (log 21). The bits from `nbits` up are 0, and the longest
instruction is one word of 16 bits (30_encoding.md R74). -/
def State.withFetchWord (s : State) (nbits w : Nat) : State := placeFetchWord s (BitVec.ofNat 16 (w % 2 ^ nbits))

end Sys2Proof.Machine
end

