-- ==== Sys2Proof/Safety.lean ====
section
/-! DEFINITION. The terms the claims use: the invariant, the whole-machine classes of instructions, what a word's decoder
reads, and the string loop of PUTS and PUTSP without a bound, with the steps a string routine takes to its end. -/

namespace Sys2Proof

/-! ## Classes of instructions -/

/-- The variant Invalid of 30_encoding.md R71, in its three causes. -/
def Instr.isInvalid : Instr → Bool
  | .addReg _ _ _ => false
  | .addImm _ _ _ => false
  | .andReg _ _ _ => false
  | .andImm _ _ _ => false
  | .not _ _ => false
  | .br _ _ => false
  | .jmp _ => false
  | .jsr _ => false
  | .jsrr _ => false
  | .ld _ _ => false
  | .ldi _ _ => false
  | .ldr _ _ _ => false
  | .lea _ _ => false
  | .st _ _ => false
  | .sti _ _ => false
  | .str _ _ _ => false
  | .trapGetc => false
  | .trapOut => false
  | .trapPuts => false
  | .trapIn => false
  | .trapPutsp => false
  | .trapHalt => false
  | .trapUnknown _ => true
  | .rti _ => true
  | .reserved13 _ => true

/-- The destination register of an instruction that sets COND (10_state.md R26). -/
def Instr.resultReg : Instr → Option Reg
  | .addReg dr _ _ => some dr
  | .addImm dr _ _ => some dr
  | .andReg dr _ _ => some dr
  | .andImm dr _ _ => some dr
  | .not dr _ => some dr
  | .br _ _ => none
  | .jmp _ => none
  | .jsr _ => none
  | .jsrr _ => none
  | .ld dr _ => some dr
  | .ldi dr _ => some dr
  | .ldr dr _ _ => some dr
  | .lea dr _ => some dr
  | .st _ _ => none
  | .sti _ _ => none
  | .str _ _ _ => none
  | .trapGetc => none
  | .trapOut => none
  | .trapPuts => none
  | .trapIn => none
  | .trapPutsp => none
  | .trapHalt => none
  | .trapUnknown _ => none
  | .rti _ => none
  | .reserved13 _ => none

/-- The general registers an instruction writes: its destination, the link register R7 of JSR and JSRR, and R0 for GETC and
IN (10_state.md R21; 45_trap.md R141). -/
def Instr.writtenRegs : Instr → List Reg
  | .addReg dr _ _ => [dr]
  | .addImm dr _ _ => [dr]
  | .andReg dr _ _ => [dr]
  | .andImm dr _ _ => [dr]
  | .not dr _ => [dr]
  | .br _ _ => []
  | .jmp _ => []
  | .jsr _ => [.r7]
  | .jsrr _ => [.r7]
  | .ld dr _ => [dr]
  | .ldi dr _ => [dr]
  | .ldr dr _ _ => [dr]
  | .lea dr _ => [dr]
  | .st _ _ => []
  | .sti _ _ => []
  | .str _ _ _ => []
  | .trapGetc => [.r0]
  | .trapOut => []
  | .trapPuts => []
  | .trapIn => [.r0]
  | .trapPutsp => []
  | .trapHalt => []
  | .trapUnknown _ => []
  | .rti _ => []
  | .reserved13 _ => []

/-- The instructions that may write PC after the increment (10_state.md R23). -/
def Instr.transfersControl : Instr → Bool
  | .addReg _ _ _ => false
  | .addImm _ _ _ => false
  | .andReg _ _ _ => false
  | .andImm _ _ _ => false
  | .not _ _ => false
  | .br _ _ => true
  | .jmp _ => true
  | .jsr _ => true
  | .jsrr _ => true
  | .ld _ _ => false
  | .ldi _ _ => false
  | .ldr _ _ _ => false
  | .lea _ _ => false
  | .st _ _ => false
  | .sti _ _ => false
  | .str _ _ _ => false
  | .trapGetc => false
  | .trapOut => false
  | .trapPuts => false
  | .trapIn => false
  | .trapPutsp => false
  | .trapHalt => false
  | .trapUnknown _ => false
  | .rti _ => false
  | .reserved13 _ => false

/-- How an instruction touches memory beyond its fetch (20_memory.md R48). -/
inductive MemoryUse where
  /-- No access. -/
  | none
  /-- Reads only. -/
  | reads
  /-- One write, after STI's pointer read. -/
  | stores
deriving DecidableEq, Repr

/-- The accesses of R48. -/
def Instr.memoryUse : Instr → MemoryUse
  | .addReg _ _ _ => .none
  | .addImm _ _ _ => .none
  | .andReg _ _ _ => .none
  | .andImm _ _ _ => .none
  | .not _ _ => .none
  | .br _ _ => .none
  | .jmp _ => .none
  | .jsr _ => .none
  | .jsrr _ => .none
  | .ld _ _ => .reads
  | .ldi _ _ => .reads
  | .ldr _ _ _ => .reads
  | .lea _ _ => .none
  | .st _ _ => .stores
  | .sti _ _ => .stores
  | .str _ _ _ => .stores
  | .trapGetc => .none
  | .trapOut => .none
  | .trapPuts => .reads
  | .trapIn => .none
  | .trapPutsp => .reads
  | .trapHalt => .none
  | .trapUnknown _ => .none
  | .rti _ => .none
  | .reserved13 _ => .none

/-- GETC and IN, the two routines that take a character from the host (20_memory.md R58). -/
def Instr.readsChar : Instr → Bool
  | .addReg _ _ _ => false
  | .addImm _ _ _ => false
  | .andReg _ _ _ => false
  | .andImm _ _ _ => false
  | .not _ _ => false
  | .br _ _ => false
  | .jmp _ => false
  | .jsr _ => false
  | .jsrr _ => false
  | .ld _ _ => false
  | .ldi _ _ => false
  | .ldr _ _ _ => false
  | .lea _ _ => false
  | .st _ _ => false
  | .sti _ _ => false
  | .str _ _ _ => false
  | .trapGetc => true
  | .trapOut => false
  | .trapPuts => false
  | .trapIn => true
  | .trapPutsp => false
  | .trapHalt => false
  | .trapUnknown _ => false
  | .rti _ => false
  | .reserved13 _ => false

/-- The routines that write to the console (60_exceptions.md R179). -/
def Instr.writesConsole : Instr → Bool
  | .addReg _ _ _ => false
  | .addImm _ _ _ => false
  | .andReg _ _ _ => false
  | .andImm _ _ _ => false
  | .not _ _ => false
  | .br _ _ => false
  | .jmp _ => false
  | .jsr _ => false
  | .jsrr _ => false
  | .ld _ _ => false
  | .ldi _ _ => false
  | .ldr _ _ _ => false
  | .lea _ _ => false
  | .st _ _ => false
  | .sti _ _ => false
  | .str _ _ _ => false
  | .trapGetc => false
  | .trapOut => true
  | .trapPuts => true
  | .trapIn => true
  | .trapPutsp => true
  | .trapHalt => true
  | .trapUnknown _ => false
  | .rti _ => false
  | .reserved13 _ => false

/-- The bits of a word that its decoder reads: all but the ones 30_encoding.md R67 lists. An Invalid carries the whole word. -/
def readMask (w : Word) : Word :=
  match w.toNat / 4096 with
  | 1 => if w.getLsbD 5 then 0xFFFF#16 else 0xFFE7#16
  | 4 => if w.getLsbD 11 then 0xFFFF#16 else 0xF9C0#16
  | 5 => if w.getLsbD 5 then 0xFFFF#16 else 0xFFE7#16
  | 9 => 0xFFC0#16
  | 12 => 0xF1C0#16
  | 15 => if hasKnownVector w then 0xF0FF#16 else 0xFFFF#16
  | _ => 0xFFFF#16

namespace Machine

/-! ## The invariant -/

/-- COND "always holds exactly one of three flag bitmasks" (10_state.md R24). -/
abbrev State.condLegal (s : State) : Prop := s.cond = Config.flagP ∨ s.cond = Config.flagZ ∨ s.cond = Config.flagN

/-- What every step keeps: the memory in canonical form (log 1), COND one of the three flags (R24), and no string routine
under way in HALTED, since HALT runs only once the routine before it has ended (00_scope.md R7; log 14). -/
abbrev State.Inv (s : State) : Prop := s.mem.wf ∧ s.condLegal ∧ (s.run = .halted → s.printing = none)

/-- The next step fetches an instruction: the core is RUNNING (40_cycle.md R90) and no string routine is under way
(log 14). -/
abbrev State.ready (s : State) : Prop := s.run = .running ∧ s.printing = none

/-! ## Images -/

/-- The load origin of an image, {b[0], b[1]} (70_reset_and_hazards.md R193). -/
def imageOrigin (b : List Byte) : Nat := (b.getD 0 0 ++ b.getD 1 0 : Word).toNat

/-- How many words follow the origin: (L-2)/2 (R193). -/
def imageCount (b : List Byte) : Nat := (b.length - 2) / 2

/-- The i-th word of an image, {b[2+2i], b[3+2i]} (R193). -/
def imageWord (b : List Byte) (i : Nat) : Word := b.getD (2 + 2 * i) 0 ++ b.getD (3 + 2 * i) 0

/-- "L >= 2, L even, origin + (L-2)/2 <= 0x10000" (R193, R196). -/
abbrev imageLoads (b : List Byte) : Prop :=
  2 ≤ b.length ∧ b.length % 2 = 0 ∧ imageOrigin b + imageCount b ≤ 0x10000

/-! ## Strings -/

/-- From the address `a` stand the non-zero words `ws` and then 0x0000, none of them in the keyboard status cell. -/
def stringAt (s : State) : Word → List Word → Prop
  | a, [] => a ≠ Config.kbsrAddr ∧ s.cell a = 0x0000#16
  | a, w :: ws => a ≠ Config.kbsrAddr ∧ s.cell a = w ∧ w ≠ 0x0000#16 ∧ stringAt s (a + 1) ws

/-- The loop of PUTS and PUTSP as 45_trap.md R144 and R146 write it, without a bound: `StringRun bytes a s t` says that it
starts at the address `a` in the state `s` and leaves the loop in the state `t`. -/
inductive StringRun (bytes : Word → List Byte) : Word → State → State → Prop where
  /-- `w <- MemRead(a); if w = 0x0000 then exit loop`. -/
  | exit (a : Word) (s : State) (h : (s.memRead a).1 = 0x0000#16) : StringRun bytes a s (s.memRead a).2
  /-- The word's bytes are written and the loop goes on at `(a + 1) mod 2^16`. -/
  | next (a : Word) (s t : State) (h : (s.memRead a).1 ≠ 0x0000#16)
      (rest : StringRun bytes (a + 1) ((s.memRead a).2.writeText (bytes (s.memRead a).1)) t) : StringRun bytes a s t

/-- `RoutineEnds t u`: the string routine that stands at `t`, ended or under way, ends in `u` after finitely many more steps
("each instruction runs to completion before the next begins", 00_scope.md R7; log 14). -/
inductive RoutineEnds : State → State → Prop where
  /-- No routine is under way: it has ended here. -/
  | ended (t : State) (h : t.printing = none) : RoutineEnds t t
  /-- The routine is under way, and the next step goes on with it. -/
  | goesOn (t t' u : State) (h : t.printing ≠ none) (hs : step t = .next t') (rest : RoutineEnds t' u) : RoutineEnds t u

end Machine

end Sys2Proof
end

