-- ==== Sys2Proof/Certificates/Slice0/Obligations.lean ====
section
/-! DEFINITION. The statements about the machine, one `def Obligations.<Name> : Prop` each; OBLIGATIONS.json lists them. -/

open Sys2Proof Sys2Proof.Machine

/-! ## Encoding -/

/-- Decoding an encoded well-formed instruction gives it back, with every operand at every value its field admits (R73). The
field layout is the spec's decision D5 (log 6). -/
def Obligations.DecodeOfEncodeGivesInstruction : Prop :=
  ∀ i : Instr, i.wellFormed = true → decode (encode i) = i

/-- Encoding a decoded word gives the word back but for the bits the decoder ignores (R67, R73). -/
def Obligations.EncodeOfDecodeKeepsReadBits : Prop :=
  ∀ w : Word, encode (decode w) &&& readMask w = w &&& readMask w

/-- Words that differ only in bits the decoder ignores decode alike (R67). -/
def Obligations.IgnoredBitsDoNotChangeDecode : Prop :=
  ∀ w w' : Word, w' &&& readMask w = w &&& readMask w → decode w' = decode w

/-- Every word decodes to a well-formed instruction (R60, R63). -/
def Obligations.DecodedInstructionIsWellFormed : Prop :=
  ∀ w : Word, (decode w).wellFormed = true

/-- R60: "A word is Invalid exactly when its opcode is 8 or 13 (rules R69 and R70), or when it is a TRAP whose low byte is not
0x20-0x25 (rule R68)." An Invalid carries the word. R70 is the clause of opcode 13. -/
def Obligations.InvalidExactlyReservedOrUnknownVector : Prop :=
  ∀ w : Word,
    ((decode w).isInvalid = true ↔
      w.extractLsb' 12 4 = 8#4 ∨ w.extractLsb' 12 4 = 13#4 ∨
        (w.extractLsb' 12 4 = 15#4 ∧ ¬ (0x20 ≤ (w.extractLsb' 0 8).toNat ∧ (w.extractLsb' 0 8).toNat ≤ 0x25))) ∧
    (w.extractLsb' 12 4 = 8#4 → decode w = .rti w) ∧
    (w.extractLsb' 12 4 = 13#4 → decode w = .reserved13 w) ∧
    (w.extractLsb' 12 4 = 15#4 → ¬ (0x20 ≤ (w.extractLsb' 0 8).toNat ∧ (w.extractLsb' 0 8).toNat ≤ 0x25) →
      decode w = .trapUnknown w)

/-- The decoder of R72 read against the masks of the opcode table: each operand comes from its field of R61, offsets and
immediates sign-extended (R63). The positions are the spec's decision D5, the vectors D6 (log 6). -/
def Obligations.DecodeReadsTheFieldsOfEachFormat : Prop :=
  ∀ w : Word,
    let dr := Reg.ofBits (w.extractLsb' 9 3)
    let sr1 := Reg.ofBits (w.extractLsb' 6 3)
    let sr2 := Reg.ofBits (w.extractLsb' 0 3)
    let off9 := (w.extractLsb' 0 9).signExtend 16
    let off6 := (w.extractLsb' 0 6).signExtend 16
    let imm5 := (w.extractLsb' 0 5).signExtend 16
    let off11 := (w.extractLsb' 0 11).signExtend 16
    (w &&& 0xF020#16 = 0x1000#16 → decode w = .addReg dr sr1 sr2) ∧
    (w &&& 0xF020#16 = 0x1020#16 → decode w = .addImm dr sr1 imm5) ∧
    (w &&& 0xF020#16 = 0x5000#16 → decode w = .andReg dr sr1 sr2) ∧
    (w &&& 0xF020#16 = 0x5020#16 → decode w = .andImm dr sr1 imm5) ∧
    (w &&& 0xF000#16 = 0x9000#16 → decode w = .not dr sr1) ∧
    (w &&& 0xF000#16 = 0x0000#16 → decode w = .br (w.extractLsb' 9 3) off9) ∧
    (w &&& 0xF000#16 = 0xC000#16 → decode w = .jmp sr1) ∧
    (w &&& 0xF800#16 = 0x4800#16 → decode w = .jsr off11) ∧
    (w &&& 0xF800#16 = 0x4000#16 → decode w = .jsrr sr1) ∧
    (w &&& 0xF000#16 = 0x2000#16 → decode w = .ld dr off9) ∧
    (w &&& 0xF000#16 = 0xA000#16 → decode w = .ldi dr off9) ∧
    (w &&& 0xF000#16 = 0x6000#16 → decode w = .ldr dr sr1 off6) ∧
    (w &&& 0xF000#16 = 0xE000#16 → decode w = .lea dr off9) ∧
    (w &&& 0xF000#16 = 0x3000#16 → decode w = .st dr off9) ∧
    (w &&& 0xF000#16 = 0xB000#16 → decode w = .sti dr off9) ∧
    (w &&& 0xF000#16 = 0x7000#16 → decode w = .str dr sr1 off6) ∧
    (w &&& 0xF0FF#16 = 0xF020#16 → decode w = .trapGetc) ∧
    (w &&& 0xF0FF#16 = 0xF021#16 → decode w = .trapOut) ∧
    (w &&& 0xF0FF#16 = 0xF022#16 → decode w = .trapPuts) ∧
    (w &&& 0xF0FF#16 = 0xF023#16 → decode w = .trapIn) ∧
    (w &&& 0xF0FF#16 = 0xF024#16 → decode w = .trapPutsp) ∧
    (w &&& 0xF0FF#16 = 0xF025#16 → decode w = .trapHalt)

/-- Words written out from the encodings of R62 decode to the instructions they stand for (95_test_vectors.md W5, 2.2). -/
def Obligations.WrittenWordsDecode : Prop :=
  decode 0b0001_000_001_0_00_010#16 = .addReg .r0 .r1 .r2 ∧
  decode 0b0101_000_000_1_00000#16 = .andImm .r0 .r0 0x0000#16 ∧
  decode 0b1001_101_101_111111#16 = .not .r5 .r5 ∧
  decode 0b0000_011_111111110#16 = .br 0b011#3 0xFFFE#16 ∧
  decode 0b1100_000_111_000000#16 = .jmp .r7 ∧
  decode 0b0100_1_00000000110#16 = .jsr 0x0006#16 ∧
  decode 0b0110_011_010_000000#16 = .ldr .r3 .r2 0x0000#16 ∧
  decode 0b1011_011_000000010#16 = .sti .r3 0x0002#16 ∧
  decode 0b1111_0000_00100101#16 = .trapHalt ∧
  decode 0b1000_000000000000#16 = .rti 0x8000#16

/-- R11: `sext_N` and `zext_8` bit by bit, for the four widths of the rule. -/
def Obligations.ExtensionFollowsTopBit : Prop :=
  (∀ n : Nat, n = 5 ∨ n = 6 ∨ n = 9 ∨ n = 11 → ∀ v : Word,
    sext n v = if v.getLsbD (n - 1) then (v &&& (0xFFFF#16 >>> (16 - n))) ||| (0xFFFF#16 <<< n)
      else v &&& (0xFFFF#16 >>> (16 - n))) ∧
  (∀ v : Word, zextByte (lowByte v) = v &&& 0x00FF#16)

/-! ## Reset, invariant and images -/

/-- The state after reset (R30, R190). COND = Z is the spec's decision D4 (log 4); the host's fields are not part of it. -/
def Obligations.ResetValues : Prop :=
  (∀ r : Reg, State.reset.reg r = 0x0000#16) ∧ State.reset.pc = 0x3000#16 ∧ State.reset.cond = 0x0002#16 ∧
    (∀ a : Word, State.reset.cell a = 0x0000#16) ∧ State.reset.run = .running

/-- Reset meets the invariant, whichever of the three flags `COND_RESET` is (R24, R192). The invariant's clauses on the
memory's form and on the routine under way are the model's (log 1, log 14). -/
def Obligations.ResetMeetsInvariant : Prop :=
  State.reset.Inv ∧ (State.resetWith Config.flagP).Inv ∧ (State.resetWith Config.flagZ).Inv ∧
    (State.resetWith Config.flagN).Inv

/-- Every step keeps the invariant: COND holds exactly one of the three flags (R24), and, by the model's choice, the memory
its canonical form (log 1) and no string routine is under way in HALTED (log 14). -/
def Obligations.StepKeepsInvariant : Prop :=
  ∀ s t : State, s.Inv → step s = .next t → t.Inv

/-- A state a run starts from holds the loaded images in its memory, meets the invariant, stands at 0x3000 whatever the
images' origins, and is about to fetch (R190, R191, R193, R194). COND = `COND_RESET` is the spec's decision D4 (log 4); that
no string routine is under way is the model's (log 14). -/
def Obligations.BootedStateMeetsInvariant : Prop :=
  ∀ (images : List (List Byte)) (s : State), boot images = .ok s →
    loadImages State.reset.mem images = .ok s.mem ∧ s.Inv ∧ s.ready ∧ s.pc = 0x3000#16 ∧ s.cond = Config.condReset ∧
      ∀ r : Reg, s.reg r = 0x0000#16

/-- R193: `load_image` puts the image's big-endian words at the origin and on, and writes no other cell. -/
def Obligations.LoadImagePlacesWordsAtOrigin : Prop :=
  ∀ (m : Memory) (b : List Byte), imageLoads b →
    ∃ m', loadImage m b = .ok m' ∧
      (∀ i, i < imageCount b → m'.read (imageOrigin b + i) = imageWord b i) ∧
      ∀ a, a < imageOrigin b ∨ imageOrigin b + imageCount b ≤ a → m'.read a = m.read a

/-- R195: images load one after another in the order given, and a later image's word replaces an earlier one at the same
address. -/
def Obligations.LaterImageReplacesEarlier : Prop :=
  ∀ (m m1 : Memory) (images : List (List Byte)) (b : List Byte), loadImages m images = .ok m1 → imageLoads b →
    ∃ m2, loadImages m (images ++ [b]) = .ok m2 ∧
      (∀ i, i < imageCount b → m2.read (imageOrigin b + i) = imageWord b i) ∧
      ∀ a, a < imageOrigin b ∨ imageOrigin b + imageCount b ≤ a → m2.read a = m1.read a

/-- A run starts exactly when there is an image and every image loads (R196). Refusing an odd byte count and words past 0xFFFF
is the spec's decision D18 (log 19). -/
def Obligations.RunStartsExactlyWhenEveryImageLoads : Prop :=
  ∀ images : List (List Byte), (∃ s, boot images = .ok s) ↔ images ≠ [] ∧ ∀ b ∈ images, imageLoads b

/-! ## Memory and the keyboard -/

/-- R43: a read of the status cell polls first, a read of any other address returns the cell and changes nothing. -/
def Obligations.ReadPollsOnlyAtStatusCell : Prop :=
  ∀ (s : State) (a : Word),
    (a = Config.kbsrAddr → s.memRead a = (s.keyboardPoll.cell a, s.keyboardPoll)) ∧
    (a ≠ Config.kbsrAddr → s.memRead a = (s.cell a, s))

/-- `KeyboardPoll()` (R45): a key sets the status cell to 0x8000 and the data cell to its code, no key clears the status cell;
no other cell changes, and nothing but memory and the host's input. Writing the whole status cell is the spec's decision D10
(log 10), the two addresses are D1 and D2 (log 3). -/
def Obligations.KeyboardPollSetsItsTwoCells : Prop :=
  ∀ (s : State) (answer : Option Byte) (h : HostInput), s.host.poll = (answer, h) →
    s.keyboardPoll.cell 0xFE00#16 = (if answer.isSome then 0x8000#16 else 0x0000#16) ∧
    (∀ c, answer = some c → s.keyboardPoll.cell 0xFE02#16 = c.setWidth 16) ∧
    (answer = none → s.keyboardPoll.cell 0xFE02#16 = s.cell 0xFE02#16) ∧
    (∀ a : Word, a ≠ 0xFE00#16 → a ≠ 0xFE02#16 → s.keyboardPoll.cell a = s.cell a) ∧
    s.keyboardPoll = { s with mem := s.keyboardPoll.mem, host := h }

/-- A poll answers true only when a character is available, and takes that character; a false answer takes none (D11, R58,
R184). The form of the host's input is the model's (log 11). -/
def Obligations.PollTakesOnlyAnAvailableCharacter : Prop :=
  (∀ (h h' : HostInput) (c : Byte), h.poll = (some c, h') → h.readChar = some (c, h')) ∧
  (∀ h h' : HostInput, h.poll = (none, h') →
    h'.keys.map Keystroke.code = h.keys.map Keystroke.code ∧ h'.ends = h.ends) ∧
  (∀ h : HostInput, h.readChar = none → h.poll = (none, h))

/-- R47: a write sets the one cell it names, the keyboard cells included, and nothing else. -/
def Obligations.WriteSetsExactlyOneCell : Prop :=
  ∀ (s : State) (a v b : Word),
    (s.memWrite a v).cell b = (if b = a then v else s.cell b) ∧
    s.memWrite a v = { s with mem := (s.memWrite a v).mem }

/-- Memory writes keep the canonical form, and two canonical memories that read alike are equal data (log 1). -/
def Obligations.CanonicalMemoriesThatReadAlikeAreEqual : Prop :=
  (∀ (m : Memory) (a : Nat) (v : Word), m.wf → a < 65536 → (m.write a v).wf) ∧
  ∀ m m' : Memory, m.wf → m'.wf → (∀ a, m.read a = m'.read a) → m = m'

/-! ## The step -/

/-- R90: a step reads the word at PC, increments PC mod 2^16, decodes the word and executes it. `ready` is R90's RUNNING; its
second half says that the step starts an instruction, and is not a further part of a string routine (log 14). -/
def Obligations.StepRunsDecodedInstruction : Prop :=
  ∀ s : State, s.ready →
    step s = exec (decode (s.memRead s.pc).1) { (s.memRead s.pc).2 with pc := s.pc + 1 }

/-- Where the cell at PC holds the word of a well-formed instruction, a step is exec of it on the state with PC incremented
(R90, R73); not at KBSR_ADDR, whose fetch reads what its poll wrote. `ready`: no string routine is under way (log 14). -/
def Obligations.StepRunsEncodedInstruction : Prop :=
  ∀ (s : State) (i : Instr), s.ready → s.pc ≠ Config.kbsrAddr → i.wellFormed = true → s.cell s.pc = encode i →
    step s = exec i { s with pc := s.pc + 1 }

/-- At KBSR_ADDR the fetch polls: with no key the word is 0x0000, which does nothing, with a key it is 0x8000, which is
reported (R45, R48, R197). These are the spec's decisions: the address D1 (log 3), the whole cell set to exactly 0x8000 or
0x0000 D10 (log 10), fetch polling D12 (log 15), and the report's pc, KBSR_ADDR + 1, D16 (log 18). `ready`: no string
routine is under way (log 14). -/
def Obligations.FetchAtStatusCellRunsPolledWord : Prop :=
  ∀ (s : State) (answer : Option Byte) (h : HostInput),
    s.ready → s.pc = Config.kbsrAddr → s.host.poll = (answer, h) →
    ∃ t, step s = .next t ∧ t.pc = Config.kbsrAddr + 1 ∧ t.regs = s.regs ∧ t.cond = s.cond ∧ t.host = h ∧
      t.mem = s.keyboardPoll.mem ∧ t.console = s.console ∧
      t.diags = s.diags ++ (if answer.isSome then [⟨0x8000#16, Config.kbsrAddr + 1⟩] else [])

/-- withFetchWord places a word so that the very next step runs it (log 21). -/
def Obligations.PlacedWordRunsNext : Prop :=
  ∀ (s : State) (w : Word), ∃ u : State,
    step (s.withFetchWord 16 w.toNat) = exec (decode w) u ∧ u.regs = s.regs ∧ u.cond = s.cond ∧ u.host = s.host ∧
      u.console = s.console ∧ u.diags = s.diags ∧ u.ready ∧
      (s.pc ≠ Config.kbsrAddr → u.pc = s.pc + 1 ∧ ∀ a, a ≠ s.pc → u.cell a = s.cell a)

/-- A store into the next instruction's cell is what the very next step fetches (R56): for ST, STR and STI, whenever the
address each stores to, with PC incremented, is PC. `ready`: no string routine is under way (log 14). -/
def Obligations.StoreIsSeenByNextFetch : Prop :=
  ∀ (s : State) (i : Instr) (sr baseR : Reg) (off : Word),
    let u := { s with pc := s.pc + 1 }
    s.ready → s.pc ≠ Config.kbsrAddr → s.pc + 1 ≠ Config.kbsrAddr → i.wellFormed = true → s.cell s.pc = encode i →
    (i = .st sr off ∧ pcRelative off u = u.pc) ∨ (i = .str sr baseR off ∧ baseOffset baseR off u = u.pc) ∨
      (i = .sti sr off ∧ (pointerAt off u).1 = u.pc) →
    ∃ t, step s = .next t ∧ step t = exec (decode (s.reg sr)) { t with pc := s.pc + 2 }

/-- In HALTED nothing is fetched and nothing changes (R91). That such a step answers the same state, and does not stop, is
the model's choice (log 2). -/
def Obligations.HaltedCoreChangesNothing : Prop :=
  ∀ s : State, s.run = .halted → step s = .next s

/-- R28: the run state starts RUNNING, only HALT writes it, and HALTED is final. A step ends in HALTED exactly when the
instruction it starts is HALT (a step that goes on with a string routine starts none, log 14). -/
def Obligations.OnlyHaltChangesRunState : Prop :=
  State.reset.run = .running ∧
  (∀ (i : Instr) (s t : State), exec i s = .next t → t.run = if i = .trapHalt then .halted else s.run) ∧
  (∀ s t : State, s.run = .halted → step s = .next t → t.run = .halted) ∧
  ∀ s t : State, s.run = .running → step s = .next t →
    (t.run = .halted ↔ s.printing = none ∧ decode (fetch s).1 = .trapHalt)

/-- No step is refused, and a step stops only where GETC or IN waits for a host whose input has ended (R94(c), R95, R142). A
stop is the model's form of that wait (D17, log 13). PUTS and PUTSP stop nowhere (R144, R146; log 14). -/
def Obligations.StepStopsOnlyWaitingForInput : Prop :=
  ∀ s : State,
    (∃ t, step s = .next t) ∨
    (∃ w, step s = .fault (.waitingForInput w) ∧ s.ready ∧ w.host.keys = [] ∧ w.host.ends = true ∧
      (decode (fetch s).1).readsChar = true)

/-! ## Whole-machine rules -/

/-- Each step advances PC by exactly 1, and only BR, JMP, JSR and JSRR write it again (R23). `ready`: the step starts an
instruction, and is not a further part of a string routine (log 14). -/
def Obligations.OnlyTransfersWritePc : Prop :=
  (∀ (i : Instr) (s t : State), exec i s = .next t → i.transfersControl = false → t.pc = s.pc) ∧
  ∀ s t : State, s.ready → step s = .next t → (decode (fetch s).1).transfersControl = false → t.pc = s.pc + 1

/-- COND is written by exactly ADD, AND, NOT, LD, LDI, LDR and LEA, from the value written to their destination (R26, R14).
That no trap routine writes it is the spec's decision D8 (log 8). -/
def Obligations.OnlyResultInstructionsWriteCond : Prop :=
  ∀ (i : Instr) (s t : State), exec i s = .next t →
    t.cond = match i.resultReg with
      | some dr => flagOf (t.reg dr)
      | none => s.cond

/-- BR is the only instruction that reads COND (R27): no other one's effect depends on it, beyond COND itself. -/
def Obligations.OnlyBrReadsCond : Prop :=
  ∀ (i : Instr) (s t : State) (c : Word), (∀ nzp off, i ≠ .br nzp off) → exec i s = .next t →
    exec i { s with cond := c } = .next { t with cond := if i.resultReg.isSome then t.cond else c }

/-- Every register an instruction does not name as written keeps its value: the destination, R7 of JSR and JSRR, R0 of GETC
and IN (R21, R141). That TRAP does not write R7 is the spec's decision D7 (log 7). -/
def Obligations.OtherRegistersKeepTheirValue : Prop :=
  ∀ (i : Instr) (s t : State) (r : Reg), exec i s = .next t → r ∉ i.writtenRegs → t.reg r = s.reg r

/-- Memory frame by the accesses of R48: an instruction without an access changes no cell, one that stores nothing changes at
most the two keyboard cells, by a poll (R45; addresses D1, D2, log 3). -/
def Obligations.OnlyStoresAndPollsChangeMemory : Prop :=
  ∀ (i : Instr) (s t : State), exec i s = .next t →
    (i.memoryUse = .none → ∀ a : Word, t.cell a = s.cell a) ∧
    (i.memoryUse = .reads → ∀ a : Word, a ≠ Config.kbsrAddr → a ≠ Config.kbdrAddr → t.cell a = s.cell a)

/-- A load none of whose reads is at the status cell changes no cell and takes no input (R49). -/
def Obligations.LoadsAwayFromStatusCellChangeNoCell : Prop :=
  ∀ (s t : State) (dr baseR : Reg) (off : Word),
    (exec (.ld dr off) s = .next t → s.pc + off ≠ Config.kbsrAddr → (∀ a, t.cell a = s.cell a) ∧ t.host = s.host) ∧
    (exec (.ldi dr off) s = .next t → s.pc + off ≠ Config.kbsrAddr → s.cell (s.pc + off) ≠ Config.kbsrAddr →
      (∀ a, t.cell a = s.cell a) ∧ t.host = s.host) ∧
    (exec (.ldr dr baseR off) s = .next t → s.reg baseR + off ≠ Config.kbsrAddr →
      (∀ a, t.cell a = s.cell a) ∧ t.host = s.host)

/-- The host's side: only the console routines write to the console, and only append; only an Invalid reports, and it reports
once; an instruction that neither reads memory nor stores nor reads a character leaves the host's input alone (R179, R163,
R183). The pc of a report is the spec's decision D16 (log 18). Only PUTS and PUTSP leave a routine under way (log 14). -/
def Obligations.HostSideFrame : Prop :=
  ∀ (i : Instr) (s t : State), exec i s = .next t →
    (∃ bs, t.console = s.console ++ bs) ∧
    (i.writesConsole = false → t.console = s.console) ∧
    (i.isInvalid = false → t.diags = s.diags) ∧
    (i.isInvalid = true → t.diags = s.diags ++ [⟨encode i, s.pc⟩]) ∧
    (i.memoryUse = .none → i.readsChar = false → t.host = s.host) ∧
    (i ≠ .trapPuts → i ≠ .trapPutsp → t.printing = s.printing)

/-! ## Operate instructions and flags -/

/-- R14: SetCC writes Z for 0x0000, N for a value with bit 15 set, P for any other value, and writes only COND. -/
def Obligations.SetCCWritesTheFlagOfTheValue : Prop :=
  ∀ (s : State) (v : Word),
    s.setCC v = { s with cond :=
      if v.toNat = 0 then Config.flagZ else if 0x8000 ≤ v.toNat then Config.flagN else Config.flagP }

/-- ADD, both forms, complete with the sum mod 2^16 in DR and COND set from it (R100, R101, R105). -/
def Obligations.AddWritesSumAndFlag : Prop :=
  ∀ (s : State) (dr sr1 sr2 : Reg) (imm : Word),
    (∃ t, exec (.addReg dr sr1 sr2) s = .next t ∧
      (t.reg dr).toNat = ((s.reg sr1).toNat + (s.reg sr2).toNat) % 65536 ∧ t.cond = flagOf (t.reg dr)) ∧
    (∃ t, exec (.addImm dr sr1 imm) s = .next t ∧
      (t.reg dr).toNat = ((s.reg sr1).toNat + imm.toNat) % 65536 ∧ t.cond = flagOf (t.reg dr))

/-- AND, both forms, complete with the bitwise and in DR and COND set from it (R102, R103). -/
def Obligations.AndWritesBitwiseAndAndFlag : Prop :=
  ∀ (s : State) (dr sr1 sr2 : Reg) (imm : Word),
    (∃ t, exec (.andReg dr sr1 sr2) s = .next t ∧
      (∀ k, (t.reg dr).getLsbD k = ((s.reg sr1).getLsbD k && (s.reg sr2).getLsbD k)) ∧ t.cond = flagOf (t.reg dr)) ∧
    (∃ t, exec (.andImm dr sr1 imm) s = .next t ∧
      (∀ k, (t.reg dr).getLsbD k = ((s.reg sr1).getLsbD k && imm.getLsbD k)) ∧ t.cond = flagOf (t.reg dr))

/-- NOT completes with the bitwise complement in DR and COND set from it (R104). -/
def Obligations.NotWritesComplementAndFlag : Prop :=
  ∀ (s : State) (dr sr : Reg),
    ∃ t, exec (.not dr sr) s = .next t ∧ (t.reg dr).toNat = 65535 - (s.reg sr).toNat ∧ t.cond = flagOf (t.reg dr)

/-! ## Control -/

/-- BR is taken exactly when the bit of the current flag is set in nzp: so never for 000 and always for 111 (R110, R25). The
hypothesis is the invariant of COND (R24). -/
def Obligations.BrIsTakenByTheCurrentFlag : Prop :=
  ∀ (s : State) (nzp : BitVec 3) (off : Word), s.condLegal →
    exec (.br nzp off) s = .next
      (if (nzp.getLsbD 2 = true ∧ s.cond = Config.flagN) ∨ (nzp.getLsbD 1 = true ∧ s.cond = Config.flagZ) ∨
          (nzp.getLsbD 0 = true ∧ s.cond = Config.flagP)
        then { s with pc := s.pc + off } else s)

/-- JMP puts BaseR into PC and changes nothing else (R111). -/
def Obligations.JmpTakesPcFromRegister : Prop :=
  ∀ (s : State) (baseR : Reg), exec (.jmp baseR) s = .next { s with pc := s.reg baseR }

/-- JSR links the incremented PC in R7, goes to PC + off11, and changes nothing else (R112). -/
def Obligations.JsrLinksAndBranches : Prop :=
  ∀ (s : State) (off : Word),
    ∃ t, exec (.jsr off) s = .next t ∧ t.reg .r7 = s.pc ∧ t.pc = s.pc + off ∧ (∀ r, r ≠ .r7 → t.reg r = s.reg r) ∧
      t = { s with regs := t.regs, pc := t.pc }

/-- JSRR links the incremented PC in R7, then goes to BaseR's value, and changes nothing else; for BaseR = R7 that value is the
new link (R113; the spec's decision D9, log 9). -/
def Obligations.JsrrLinksThenReadsBase : Prop :=
  ∀ (s : State) (baseR : Reg),
    ∃ t, exec (.jsrr baseR) s = .next t ∧ t.reg .r7 = s.pc ∧
      t.pc = (if baseR = .r7 then s.pc else s.reg baseR) ∧ (∀ r, r ≠ .r7 → t.reg r = s.reg r) ∧
      t = { s with regs := t.regs, pc := t.pc }

/-! ## Loads and stores -/

/-- LD, LDI and LDR complete with the word read in DR, COND set from it, and the memory and host input their reads leave:
LDI reads the pointer first (R120, R121, R122). -/
def Obligations.LoadsReadTheirCell : Prop :=
  ∀ (s : State) (dr baseR : Reg) (off : Word),
    (∃ t, exec (.ld dr off) s = .next t ∧ t.reg dr = (s.memRead (s.pc + off)).1 ∧ t.cond = flagOf (t.reg dr) ∧
      t.mem = (s.memRead (s.pc + off)).2.mem ∧ t.host = (s.memRead (s.pc + off)).2.host) ∧
    (∃ t p u, s.memRead (s.pc + off) = (p, u) ∧ exec (.ldi dr off) s = .next t ∧ t.reg dr = (u.memRead p).1 ∧
      t.cond = flagOf (t.reg dr) ∧ t.mem = (u.memRead p).2.mem ∧ t.host = (u.memRead p).2.host) ∧
    (∃ t, exec (.ldr dr baseR off) s = .next t ∧ t.reg dr = (s.memRead (s.reg baseR + off)).1 ∧
      t.cond = flagOf (t.reg dr) ∧ t.mem = (s.memRead (s.reg baseR + off)).2.mem ∧
      t.host = (s.memRead (s.reg baseR + off)).2.host)

/-- LEA completes with PC + off9 in DR and COND set from it, without a memory access (R123). -/
def Obligations.LeaWritesAddressAndFlag : Prop :=
  ∀ (s : State) (dr : Reg) (off : Word),
    ∃ t, exec (.lea dr off) s = .next t ∧ t.reg dr = s.pc + off ∧ t.cond = flagOf (s.pc + off) ∧
      t = { s with regs := t.regs, cond := t.cond }

/-- ST and STR complete, store the register's word at their address, leave every other cell and everything but memory alone
(R130, R132, R133). -/
def Obligations.StoresWriteOneCell : Prop :=
  ∀ (s : State) (sr baseR : Reg) (off : Word),
    (∃ t, exec (.st sr off) s = .next t ∧
      (∀ a : Word, t.cell a = if a = pcRelative off s then s.reg sr else s.cell a) ∧ t = { s with mem := t.mem }) ∧
    (∃ t, exec (.str sr baseR off) s = .next t ∧
      (∀ a : Word, t.cell a = if a = baseOffset baseR off s then s.reg sr else s.cell a) ∧ t = { s with mem := t.mem })

/-- STI completes: it stores the register's word at the pointer, leaves every other cell as the pointer read left it, and
changes nothing but memory and, by a poll, the host's input (R131, R133). -/
def Obligations.StiWritesCellAtPointer : Prop :=
  ∀ (s : State) (sr : Reg) (off : Word),
    ∃ t, exec (.sti sr off) s = .next t ∧
      (∀ a : Word, t.cell a = if a = (pointerAt off s).1 then s.reg sr else (pointerAt off s).2.cell a) ∧
      t.host = (pointerAt off s).2.host ∧ t = { s with mem := t.mem, host := t.host }

/-! ## Trap routines -/

/-- GETC completes when the host lists a keystroke, or has not ended its input: the character in R0 with bits 15:8 clear,
nothing echoed, and only R0 and the host's input change (R142; D7, D8, log 7, log 8). When the input has ended the step waits
(D17, log 13). The form of the host's input, keystrokes listed and then free or ended, is the model's (log 11). -/
def Obligations.GetcReadsOneCharacter : Prop :=
  ∀ s : State,
    (∀ k ks, s.host.keys = k :: ks → ∃ t, exec .trapGetc s = .next t ∧ (t.reg .r0).toNat = k.code.toNat ∧
      (∀ r, r ≠ .r0 → t.reg r = s.reg r) ∧ t.host.keys = ks ∧ t = { s with regs := t.regs, host := t.host }) ∧
    (s.host.keys = [] → s.host.ends = false → ∃ t, exec .trapGetc s = .next t ∧ (t.reg .r0).toNat < 256 ∧
      (∀ r, r ≠ .r0 → t.reg r = s.reg r) ∧ t = { s with regs := t.regs, host := t.host }) ∧
    (s.host.keys = [] → s.host.ends = true → exec .trapGetc s = .fault (.waitingForInput s))

/-- IN writes the prompt and then behaves as GETC, without an echo of the character: only R0, the host's input and the console
change; the prompt is written even when the step then waits (R145; D7, D8, D17, log 7, log 8, log 13). The prompt's text is
OPEN (D14, log 17), and the form of the host's input is the model's (log 11). -/
def Obligations.InPromptsThenReadsOneCharacter : Prop :=
  ∀ s : State,
    (∀ k ks, s.host.keys = k :: ks → ∃ t, exec .trapIn s = .next t ∧ (t.reg .r0).toNat = k.code.toNat ∧
      (∀ r, r ≠ .r0 → t.reg r = s.reg r) ∧ t.host.keys = ks ∧ t.console = s.console ++ Config.inPrompt ∧
      t = { s with regs := t.regs, host := t.host, console := t.console }) ∧
    (s.host.keys = [] → s.host.ends = false → ∃ t, exec .trapIn s = .next t ∧ (t.reg .r0).toNat < 256 ∧
      (∀ r, r ≠ .r0 → t.reg r = s.reg r) ∧ t.console = s.console ++ Config.inPrompt ∧
      t = { s with regs := t.regs, host := t.host, console := t.console }) ∧
    (s.host.keys = [] → s.host.ends = true →
      exec .trapIn s = .fault (.waitingForInput { s with console := s.console ++ Config.inPrompt }))

/-- OUT writes the low byte of R0 and changes nothing else (R143, R141; D7, log 7). -/
def Obligations.OutWritesLowByteOfR0 : Prop :=
  ∀ s : State, ∃ b : Byte, b.toNat = (s.reg .r0).toNat % 256 ∧
    exec .trapOut s = .next { s with console := s.console ++ [b] }

/-- PUTS writes the low byte of each word of the string at R0, up to the zero word, and changes nothing else (R144; D13,
log 16; D7, log 7). -/
def Obligations.PutsWritesLowBytesOfString : Prop :=
  ∀ (s : State) (ws : List Word), stringAt s (s.reg .r0) ws →
    exec .trapPuts s = .next { s with console := s.console ++ ws.map (fun w => w.extractLsb' 0 8) }

/-- PUTSP writes of each word of the string at R0 the low byte, then the high byte if it is not zero, up to the zero word, and
changes nothing else (R146; going on at a + 1 mod 2^16 is D13, log 16; D7, log 7). -/
def Obligations.PutspWritesPackedBytesOfString : Prop :=
  ∀ (s : State) (ws : List Word), stringAt s (s.reg .r0) ws →
    exec .trapPutsp s = .next { s with console := s.console ++ ws.flatMap (fun w =>
      w.extractLsb' 0 8 :: if w.toNat / 256 = 0 then [] else [w.extractLsb' 8 8]) }

/-- PUTS and PUTSP are the loop of R144 and R146, without a bound: where that loop ends in `u`, the routine ends in `u` after
finitely many steps, and the routine ends nowhere else. Polls and wraps are those of the loop (the spec's decisions D12 and
D13, logs 15 and 16). That the loop may take several steps of the model is log 14. -/
def Obligations.StringRoutinesFollowTheLoop : Prop :=
  ∀ s u : State, s.ready →
    (StringRun (fun w => [w.extractLsb' 0 8]) (s.reg .r0) s u ↔
      ∃ t, exec .trapPuts s = .next t ∧ RoutineEnds t u) ∧
    (StringRun (fun w => w.extractLsb' 0 8 :: if w.toNat / 256 = 0 then [] else [w.extractLsb' 8 8]) (s.reg .r0) s u ↔
      ∃ t, exec .trapPutsp s = .next t ∧ RoutineEnds t u)

/-- When the host's input has ended but for its listed keystrokes, PUTS and PUTSP end in their own step, as the loop of R144
and R146 does: a lap of the address space passes the status cell, and goes on there only by taking a keystroke (R45; the
spec's decisions D12 and D13, logs 15 and 16; the form of the input and of a routine under way are the model's, log 11 and
log 14). -/
def Obligations.StringRoutinesEndWhenInputEnds : Prop :=
  ∀ s : State, s.host.ends = true → s.printing = none →
    (∃ t, exec .trapPuts s = .next t ∧ t.printing = none ∧ StringRun (fun w => [w.extractLsb' 0 8]) (s.reg .r0) s t) ∧
    (∃ t, exec .trapPutsp s = .next t ∧ t.printing = none ∧
      StringRun (fun w => w.extractLsb' 0 8 :: if w.toNat / 256 = 0 then [] else [w.extractLsb' 8 8]) (s.reg .r0) s t)

/-- A step that goes on with a string routine completes and keeps everything but the console, which only grows, the two
keyboard cells and the host's input: it fetches nothing, and the routine under way stays the same one or ends (R140, R141; D7,
D8, D12, logs 7, 8, 15; the part steps are the model's, log 14). -/
def Obligations.RoutineUnderWayOnlyPrints : Prop :=
  ∀ (s : State) (p : StringProgress), s.run = .running → s.printing = some p →
    ∃ t, step s = .next t ∧ t.regs = s.regs ∧ t.pc = s.pc ∧ t.cond = s.cond ∧ t.run = s.run ∧ t.diags = s.diags ∧
      (∃ bs, t.console = s.console ++ bs) ∧
      (∀ a : Word, a ≠ Config.kbsrAddr → a ≠ Config.kbdrAddr → t.cell a = s.cell a) ∧
      (t.printing = none ∨ ∃ a, t.printing = some ⟨p.kind, a⟩)

/-- HALT writes the halt notice, makes the run state HALTED and changes nothing else: PC keeps the HALT's address + 1 (R147;
the notice is OPEN, D15, log 17; D7, log 7). -/
def Obligations.HaltWritesNoticeAndHalts : Prop :=
  ∀ s : State, exec .trapHalt s = .next { s with console := s.console ++ Config.haltNotice, run := .halted }

/-! ## Invalid words -/

/-- Opcode 8 and opcode 13, whatever the bits 11:0: the report (word, PC) and nothing else (R160, R161). That the report's
pc is the incremented PC is the spec's decision D16 (log 18). -/
def Obligations.ReservedOpcodesReportAndContinue : Prop :=
  ∀ (s : State) (w : Word), w.extractLsb' 12 4 = 8#4 ∨ w.extractLsb' 12 4 = 13#4 →
    exec (decode w) s = .next { s with diags := s.diags ++ [⟨w, s.pc⟩] }

/-- TRAP with a vector outside 0x20-0x25, whatever the bits 11:8: the report (word, PC) and nothing else; R7 is
not written (R162; the vectors are D6, log 6, and R7 is D7, log 7). That the report's pc is the incremented PC is the spec's
decision D16 (log 18). -/
def Obligations.UnknownVectorReportsAndContinues : Prop :=
  ∀ (s : State) (w : Word), w.extractLsb' 12 4 = 15#4 →
    ((w.extractLsb' 0 8).toNat < 0x20 ∨ 0x25 < (w.extractLsb' 0 8).toNat) →
    exec (decode w) s = .next { s with diags := s.diags ++ [⟨w, s.pc⟩] }

/-- The three Invalid constructors complete as instructions of their own: the report (word, PC) and nothing else (R160-R162,
R15, R174). That the report's pc is the incremented PC is the spec's decision D16 (log 18). -/
def Obligations.InvalidInstructionsOnlyReport : Prop :=
  ∀ (i : Instr) (s : State), i.isInvalid = true → i.wellFormed = true →
    exec i s = .next { s with diags := s.diags ++ [⟨encode i, s.pc⟩] }
end

