-- ==== Sys2Proof/Laws/Encoding.lean ====
section
/-! SUPPORT. The laws of the encoding's parts: register numbers, sign extension and its ranges, the fields of a
concatenation. -/

namespace Sys2Proof

@[simp] theorem Reg.ofBits_toBits (r : Reg) : Reg.ofBits r.toBits = r := by cases r <;> rfl

@[simp] theorem Reg.toBits_ofBits (b : BitVec 3) : (Reg.ofBits b).toBits = b := by
  revert b; decide

/-- A word in the signed range of an n-bit field is the extension of its low n bits. -/
theorem sext_of_fits {n : Nat} (hn : 0 < n) (hn16 : n ≤ 16) {v : Word} (lo : -(2 ^ (n - 1) : Int) ≤ v.toInt)
    (hi : v.toInt < 2 ^ (n - 1)) : sext n v = v := by
  have hv : (v.toNat : Int).bmod (2 ^ n) = v.toInt.bmod (2 ^ n) := by
    rw [BitVec.toInt_eq_toNat_bmod, Int.bmod_bmod_of_dvd (pow_dvd_pow 2 hn16)]
  have h2 : (2 : Int) ^ n = 2 * 2 ^ (n - 1) := by
    obtain ⟨k, rfl⟩ : ∃ k, n = k + 1 := ⟨n - 1, by omega⟩
    simp [pow_succ, mul_comm]
  apply BitVec.eq_of_toInt_eq
  rw [sext, BitVec.toInt_signExtend_of_le hn16, BitVec.toInt_setWidth, hv]
  apply Int.bmod_eq_of_le <;> push_cast <;> omega

theorem signedIn_iff {lo hi : Int} {v : Word} : signedIn lo hi v = true ↔ lo ≤ v.toInt ∧ v.toInt ≤ hi := by
  simp [signedIn]

theorem sext5_of_fits {v : Word} (h : fitsImm5 v = true) : sext 5 v = v := by
  obtain ⟨h1, h2⟩ := signedIn_iff.1 h
  exact sext_of_fits (by decide) (by decide) (by norm_num; omega) (by norm_num; omega)

theorem sext6_of_fits {v : Word} (h : fitsOff6 v = true) : sext 6 v = v := by
  obtain ⟨h1, h2⟩ := signedIn_iff.1 h
  exact sext_of_fits (by decide) (by decide) (by norm_num; omega) (by norm_num; omega)

theorem sext9_of_fits {v : Word} (h : fitsOff9 v = true) : sext 9 v = v := by
  obtain ⟨h1, h2⟩ := signedIn_iff.1 h
  exact sext_of_fits (by decide) (by decide) (by norm_num; omega) (by norm_num; omega)

theorem sext11_of_fits {v : Word} (h : fitsOff11 v = true) : sext 11 v = v := by
  obtain ⟨h1, h2⟩ := signedIn_iff.1 h
  exact sext_of_fits (by decide) (by decide) (by norm_num; omega) (by norm_num; omega)

/-- Only the low n bits of a word matter to its extension. -/
theorem sext_congr {n : Nat} {v w : Word} (h : v.setWidth n = w.setWidth n) : sext n v = sext n w := by
  unfold sext; rw [h]

/-- The extension of an n-bit field lies in its signed range. -/
theorem sext_range {n : Nat} (hn16 : n ≤ 16) (v : Word) :
    -(2 ^ (n - 1) : Int) ≤ (sext n v).toInt ∧ (sext n v).toInt < 2 ^ (n - 1) := by
  rw [sext, BitVec.toInt_signExtend_of_le hn16]
  exact ⟨BitVec.le_toInt _, BitVec.toInt_lt⟩

/-! ## Fields of a concatenation -/

/-- The low part of a concatenation. -/
theorem extract_append_low {a b : Nat} (x : BitVec a) (y : BitVec b) : (x ++ y).extractLsb' 0 b = y := by
  ext i hi
  simp [BitVec.getLsbD_append, hi]

/-- A field that lies above the last part of a concatenation. -/
theorem extract_append_high {a b : Nat} (x : BitVec a) (y : BitVec b) (k len : Nat) :
    (x ++ y).extractLsb' (b + k) len = x.extractLsb' k len := by
  ext i hi
  simp [BitVec.getLsbD_append, Nat.add_assoc]

/-- A field that lies inside the last part of a concatenation. -/
theorem extract_append_inside {a b : Nat} (x : BitVec a) (y : BitVec b) (k len : Nat) (h : k + len ≤ b) :
    (x ++ y).extractLsb' k len = y.extractLsb' k len := by
  ext i hi
  have : k + i < b := by omega
  simp [BitVec.getLsbD_append, this]

end Sys2Proof
end

