-- ==== Sys2Proof/Laws/State.lean ====
section
/-! SUPPORT. One lemma for each field under each named update of State, true by rfl. -/

namespace Sys2Proof.Machine

/-! ## setReg -/

@[simp] theorem State.setReg_regs (s : State) (r : Reg) (v : Word) : (s.setReg r v).regs = s.regs.set r v := rfl
@[simp] theorem State.setReg_pc (s : State) (r : Reg) (v : Word) : (s.setReg r v).pc = s.pc := rfl
@[simp] theorem State.setReg_cond (s : State) (r : Reg) (v : Word) : (s.setReg r v).cond = s.cond := rfl
@[simp] theorem State.setReg_mem (s : State) (r : Reg) (v : Word) : (s.setReg r v).mem = s.mem := rfl
@[simp] theorem State.setReg_run (s : State) (r : Reg) (v : Word) : (s.setReg r v).run = s.run := rfl
@[simp] theorem State.setReg_host (s : State) (r : Reg) (v : Word) : (s.setReg r v).host = s.host := rfl
@[simp] theorem State.setReg_console (s : State) (r : Reg) (v : Word) : (s.setReg r v).console = s.console := rfl
@[simp] theorem State.setReg_diags (s : State) (r : Reg) (v : Word) : (s.setReg r v).diags = s.diags := rfl
@[simp] theorem State.setReg_printing (s : State) (r : Reg) (v : Word) : (s.setReg r v).printing = s.printing := rfl

/-! ## setPc -/

@[simp] theorem State.setPc_regs (s : State) (a : Word) : (s.setPc a).regs = s.regs := rfl
@[simp] theorem State.setPc_pc (s : State) (a : Word) : (s.setPc a).pc = a := rfl
@[simp] theorem State.setPc_cond (s : State) (a : Word) : (s.setPc a).cond = s.cond := rfl
@[simp] theorem State.setPc_mem (s : State) (a : Word) : (s.setPc a).mem = s.mem := rfl
@[simp] theorem State.setPc_run (s : State) (a : Word) : (s.setPc a).run = s.run := rfl
@[simp] theorem State.setPc_host (s : State) (a : Word) : (s.setPc a).host = s.host := rfl
@[simp] theorem State.setPc_console (s : State) (a : Word) : (s.setPc a).console = s.console := rfl
@[simp] theorem State.setPc_diags (s : State) (a : Word) : (s.setPc a).diags = s.diags := rfl
@[simp] theorem State.setPc_printing (s : State) (a : Word) : (s.setPc a).printing = s.printing := rfl

/-! ## setCell -/

@[simp] theorem State.setCell_regs (s : State) (a v : Word) : (s.setCell a v).regs = s.regs := rfl
@[simp] theorem State.setCell_pc (s : State) (a v : Word) : (s.setCell a v).pc = s.pc := rfl
@[simp] theorem State.setCell_cond (s : State) (a v : Word) : (s.setCell a v).cond = s.cond := rfl
@[simp] theorem State.setCell_mem (s : State) (a v : Word) : (s.setCell a v).mem = s.mem.write a.toNat v := rfl
@[simp] theorem State.setCell_run (s : State) (a v : Word) : (s.setCell a v).run = s.run := rfl
@[simp] theorem State.setCell_host (s : State) (a v : Word) : (s.setCell a v).host = s.host := rfl
@[simp] theorem State.setCell_console (s : State) (a v : Word) : (s.setCell a v).console = s.console := rfl
@[simp] theorem State.setCell_diags (s : State) (a v : Word) : (s.setCell a v).diags = s.diags := rfl
@[simp] theorem State.setCell_printing (s : State) (a v : Word) : (s.setCell a v).printing = s.printing := rfl

/-! ## memWrite -/

@[simp] theorem State.memWrite_regs (s : State) (a v : Word) : (s.memWrite a v).regs = s.regs := rfl
@[simp] theorem State.memWrite_pc (s : State) (a v : Word) : (s.memWrite a v).pc = s.pc := rfl
@[simp] theorem State.memWrite_cond (s : State) (a v : Word) : (s.memWrite a v).cond = s.cond := rfl
@[simp] theorem State.memWrite_mem (s : State) (a v : Word) : (s.memWrite a v).mem = s.mem.write a.toNat v := rfl
@[simp] theorem State.memWrite_run (s : State) (a v : Word) : (s.memWrite a v).run = s.run := rfl
@[simp] theorem State.memWrite_host (s : State) (a v : Word) : (s.memWrite a v).host = s.host := rfl
@[simp] theorem State.memWrite_console (s : State) (a v : Word) : (s.memWrite a v).console = s.console := rfl
@[simp] theorem State.memWrite_diags (s : State) (a v : Word) : (s.memWrite a v).diags = s.diags := rfl
@[simp] theorem State.memWrite_printing (s : State) (a v : Word) : (s.memWrite a v).printing = s.printing := rfl

/-! ## setCC -/

@[simp] theorem State.setCC_regs (s : State) (v : Word) : (s.setCC v).regs = s.regs := rfl
@[simp] theorem State.setCC_pc (s : State) (v : Word) : (s.setCC v).pc = s.pc := rfl
@[simp] theorem State.setCC_cond (s : State) (v : Word) : (s.setCC v).cond = flagOf v := rfl
@[simp] theorem State.setCC_mem (s : State) (v : Word) : (s.setCC v).mem = s.mem := rfl
@[simp] theorem State.setCC_run (s : State) (v : Word) : (s.setCC v).run = s.run := rfl
@[simp] theorem State.setCC_host (s : State) (v : Word) : (s.setCC v).host = s.host := rfl
@[simp] theorem State.setCC_console (s : State) (v : Word) : (s.setCC v).console = s.console := rfl
@[simp] theorem State.setCC_diags (s : State) (v : Word) : (s.setCC v).diags = s.diags := rfl
@[simp] theorem State.setCC_printing (s : State) (v : Word) : (s.setCC v).printing = s.printing := rfl

/-! ## setResult -/

@[simp] theorem State.setResult_regs (s : State) (r : Reg) (v : Word) : (s.setResult r v).regs = s.regs.set r v := rfl
@[simp] theorem State.setResult_pc (s : State) (r : Reg) (v : Word) : (s.setResult r v).pc = s.pc := rfl
@[simp] theorem State.setResult_cond (s : State) (r : Reg) (v : Word) : (s.setResult r v).cond = flagOf v := rfl
@[simp] theorem State.setResult_mem (s : State) (r : Reg) (v : Word) : (s.setResult r v).mem = s.mem := rfl
@[simp] theorem State.setResult_run (s : State) (r : Reg) (v : Word) : (s.setResult r v).run = s.run := rfl
@[simp] theorem State.setResult_host (s : State) (r : Reg) (v : Word) : (s.setResult r v).host = s.host := rfl
@[simp] theorem State.setResult_console (s : State) (r : Reg) (v : Word) : (s.setResult r v).console = s.console := rfl
@[simp] theorem State.setResult_diags (s : State) (r : Reg) (v : Word) : (s.setResult r v).diags = s.diags := rfl
@[simp] theorem State.setResult_printing (s : State) (r : Reg) (v : Word) : (s.setResult r v).printing = s.printing := rfl

/-! ## writeText -/

@[simp] theorem State.writeText_regs (s : State) (bs : List Byte) : (s.writeText bs).regs = s.regs := rfl
@[simp] theorem State.writeText_pc (s : State) (bs : List Byte) : (s.writeText bs).pc = s.pc := rfl
@[simp] theorem State.writeText_cond (s : State) (bs : List Byte) : (s.writeText bs).cond = s.cond := rfl
@[simp] theorem State.writeText_mem (s : State) (bs : List Byte) : (s.writeText bs).mem = s.mem := rfl
@[simp] theorem State.writeText_run (s : State) (bs : List Byte) : (s.writeText bs).run = s.run := rfl
@[simp] theorem State.writeText_host (s : State) (bs : List Byte) : (s.writeText bs).host = s.host := rfl
@[simp] theorem State.writeText_console (s : State) (bs : List Byte) : (s.writeText bs).console = s.console ++ bs := rfl
@[simp] theorem State.writeText_diags (s : State) (bs : List Byte) : (s.writeText bs).diags = s.diags := rfl
@[simp] theorem State.writeText_printing (s : State) (bs : List Byte) : (s.writeText bs).printing = s.printing := rfl

/-! ## writeByte -/

@[simp] theorem State.writeByte_regs (s : State) (b : Byte) : (s.writeByte b).regs = s.regs := rfl
@[simp] theorem State.writeByte_pc (s : State) (b : Byte) : (s.writeByte b).pc = s.pc := rfl
@[simp] theorem State.writeByte_cond (s : State) (b : Byte) : (s.writeByte b).cond = s.cond := rfl
@[simp] theorem State.writeByte_mem (s : State) (b : Byte) : (s.writeByte b).mem = s.mem := rfl
@[simp] theorem State.writeByte_run (s : State) (b : Byte) : (s.writeByte b).run = s.run := rfl
@[simp] theorem State.writeByte_host (s : State) (b : Byte) : (s.writeByte b).host = s.host := rfl
@[simp] theorem State.writeByte_console (s : State) (b : Byte) : (s.writeByte b).console = s.console ++ [b] := rfl
@[simp] theorem State.writeByte_diags (s : State) (b : Byte) : (s.writeByte b).diags = s.diags := rfl
@[simp] theorem State.writeByte_printing (s : State) (b : Byte) : (s.writeByte b).printing = s.printing := rfl

/-! ## hostDiag -/

@[simp] theorem State.hostDiag_regs (s : State) (w p : Word) : (s.hostDiag w p).regs = s.regs := rfl
@[simp] theorem State.hostDiag_pc (s : State) (w p : Word) : (s.hostDiag w p).pc = s.pc := rfl
@[simp] theorem State.hostDiag_cond (s : State) (w p : Word) : (s.hostDiag w p).cond = s.cond := rfl
@[simp] theorem State.hostDiag_mem (s : State) (w p : Word) : (s.hostDiag w p).mem = s.mem := rfl
@[simp] theorem State.hostDiag_run (s : State) (w p : Word) : (s.hostDiag w p).run = s.run := rfl
@[simp] theorem State.hostDiag_host (s : State) (w p : Word) : (s.hostDiag w p).host = s.host := rfl
@[simp] theorem State.hostDiag_console (s : State) (w p : Word) : (s.hostDiag w p).console = s.console := rfl
@[simp] theorem State.hostDiag_diags (s : State) (w p : Word) : (s.hostDiag w p).diags = s.diags ++ [⟨w, p⟩] := rfl
@[simp] theorem State.hostDiag_printing (s : State) (w p : Word) : (s.hostDiag w p).printing = s.printing := rfl

/-! ## raiseMalformed -/

@[simp] theorem State.raiseMalformed_regs (s : State) (w : Word) : (s.raiseMalformed w).regs = s.regs := rfl
@[simp] theorem State.raiseMalformed_pc (s : State) (w : Word) : (s.raiseMalformed w).pc = s.pc := rfl
@[simp] theorem State.raiseMalformed_cond (s : State) (w : Word) : (s.raiseMalformed w).cond = s.cond := rfl
@[simp] theorem State.raiseMalformed_mem (s : State) (w : Word) : (s.raiseMalformed w).mem = s.mem := rfl
@[simp] theorem State.raiseMalformed_run (s : State) (w : Word) : (s.raiseMalformed w).run = s.run := rfl
@[simp] theorem State.raiseMalformed_host (s : State) (w : Word) : (s.raiseMalformed w).host = s.host := rfl
@[simp] theorem State.raiseMalformed_console (s : State) (w : Word) : (s.raiseMalformed w).console = s.console := rfl
@[simp] theorem State.raiseMalformed_diags (s : State) (w : Word) : (s.raiseMalformed w).diags = s.diags ++ [⟨w, s.pc⟩] := rfl
@[simp] theorem State.raiseMalformed_printing (s : State) (w : Word) : (s.raiseMalformed w).printing = s.printing := rfl

/-! ## returnFromException -/

@[simp] theorem State.returnFromException_regs (s : State) (w : Word) : (s.returnFromException w).regs = s.regs := rfl
@[simp] theorem State.returnFromException_pc (s : State) (w : Word) : (s.returnFromException w).pc = s.pc := rfl
@[simp] theorem State.returnFromException_cond (s : State) (w : Word) : (s.returnFromException w).cond = s.cond := rfl
@[simp] theorem State.returnFromException_mem (s : State) (w : Word) : (s.returnFromException w).mem = s.mem := rfl
@[simp] theorem State.returnFromException_run (s : State) (w : Word) : (s.returnFromException w).run = s.run := rfl
@[simp] theorem State.returnFromException_host (s : State) (w : Word) : (s.returnFromException w).host = s.host := rfl
@[simp] theorem State.returnFromException_console (s : State) (w : Word) : (s.returnFromException w).console = s.console := rfl
@[simp] theorem State.returnFromException_diags (s : State) (w : Word) : (s.returnFromException w).diags = s.diags ++ [⟨w, s.pc⟩] := rfl
@[simp] theorem State.returnFromException_printing (s : State) (w : Word) : (s.returnFromException w).printing = s.printing := rfl

/-! ## halt -/

@[simp] theorem State.halt_regs (s : State) : s.halt.regs = s.regs := rfl
@[simp] theorem State.halt_pc (s : State) : s.halt.pc = s.pc := rfl
@[simp] theorem State.halt_cond (s : State) : s.halt.cond = s.cond := rfl
@[simp] theorem State.halt_mem (s : State) : s.halt.mem = s.mem := rfl
@[simp] theorem State.halt_run (s : State) : s.halt.run = .halted := rfl
@[simp] theorem State.halt_host (s : State) : s.halt.host = s.host := rfl
@[simp] theorem State.halt_console (s : State) : s.halt.console = s.console := rfl
@[simp] theorem State.halt_diags (s : State) : s.halt.diags = s.diags := rfl
@[simp] theorem State.halt_printing (s : State) : s.halt.printing = s.printing := rfl

/-! ## Fields written outside the named updates -/

@[simp] theorem State.setReg_reg_def (s : State) (r q : Reg) (v : Word) : (s.setReg r v).reg q = (s.regs.set r v).get q := rfl
@[simp] theorem State.cell_of_mem (s : State) (m : Memory) (a : Word) :
    ({ s with mem := m } : State).cell a = m.read a.toNat := rfl

/-- Two states with equal fields are equal. -/
theorem State.eq_of_fields {s t : State} (h1 : s.regs = t.regs) (h2 : s.pc = t.pc) (h3 : s.cond = t.cond)
    (h4 : s.mem = t.mem) (h5 : s.run = t.run) (h6 : s.host = t.host) (h7 : s.console = t.console)
    (h8 : s.diags = t.diags) (h9 : s.printing = t.printing) : s = t := by
  cases s; cases t; simp_all

/-- TRAP entry changes nothing while `TRAP_LINKS_R7` is false (45_trap.md R140). -/
@[simp] theorem linkTrap_eq (s : State) : linkTrap s = s := rfl

end Sys2Proof.Machine
end

