-- ==== Sys2Proof/Laws/Registers.lean ====
section
/-! SUPPORT. Reading a register after a write. -/

namespace Sys2Proof.Machine

theorem Regs.get_set (x : Regs) (r q : Reg) (v : Word) : (x.set r v).get q = if q = r then v else x.get q := by
  cases r <;> cases q <;> rfl

@[simp] theorem Regs.get_set_self (x : Regs) (r : Reg) (v : Word) : (x.set r v).get r = v := by
  simp [Regs.get_set]

@[simp] theorem Regs.get_set_other (x : Regs) {r q : Reg} (v : Word) (h : q ≠ r) : (x.set r v).get q = x.get q := by
  simp [Regs.get_set, h]

theorem State.reg_eq (s : State) (r : Reg) : s.reg r = s.regs.get r := rfl

@[simp] theorem State.reg_setReg_self (s : State) (r : Reg) (v : Word) : (s.setReg r v).reg r = v := by
  simp [State.reg_eq]

@[simp] theorem State.reg_setResult_self (s : State) (r : Reg) (v : Word) : (s.setResult r v).reg r = v := by
  simp [State.reg_eq]

theorem State.reg_setResult_other (s : State) {r q : Reg} (v : Word) (h : q ≠ r) : (s.setResult r v).reg q = s.reg q := by
  simp [State.reg_eq, h]

/-- Registers with equal values under every name are equal. -/
theorem Regs.ext_get {x y : Regs} (h : ∀ r, x.get r = y.get r) : x = y := by
  have h0 := h .r0; have h1 := h .r1; have h2 := h .r2; have h3 := h .r3
  have h4 := h .r4; have h5 := h .r5; have h6 := h .r6; have h7 := h .r7
  cases x; cases y; simp_all [Regs.get]

end Sys2Proof.Machine
end

