-- ==== Sys2Proof/Laws/Memory.lean ====
section
/-! SUPPORT. The laws of memory: a read after a write, and that every memory operation keeps the canonical form. -/

namespace Sys2Proof.Machine

@[simp] theorem Memory.read_nil (a : Nat) : Memory.read [] a = 0 := rfl

theorem Memory.read_cons (b : Nat) (w : Word) (m : Memory) (a : Nat) :
    Memory.read ((b, w) :: m) a = if b = a then w else m.read a := rfl

theorem Memory.read_erase (m : Memory) (a b : Nat) :
    Memory.read (m.filter (fun c => c.1 != a)) b = if b = a then 0 else m.read b := by
  induction m with
  | nil => simp
  | cons c m ih =>
    obtain ⟨x, w⟩ := c
    by_cases hx : x = a
    · subst hx
      by_cases hb : b = x
      · subst hb
        simpa using ih
      · have hb' : ¬ x = b := fun h => hb h.symm
        simp [ih, hb, Memory.read_cons, hb']
    · by_cases hb : b = a
      · subst hb
        simp [hx, Memory.read_cons, ih]
      · simp [hx, hb, Memory.read_cons, ih]

theorem Memory.read_insert (m : Memory) (a : Nat) (v : Word) (hm : ∀ c ∈ m, c.1 ≠ a) (b : Nat) :
    Memory.read (m.insert a v) b = if b = a then v else m.read b := by
  induction m with
  | nil =>
    by_cases hb : b = a
    · simp [Memory.insert, Memory.read_cons, hb]
    · have : ¬ a = b := fun h => hb h.symm
      simp [Memory.insert, Memory.read_cons, hb, this]
  | cons c m ih =>
    obtain ⟨x, w⟩ := c
    have hx : x ≠ a := hm (x, w) (by simp)
    have ih := ih (fun c hc => hm c (by simp [hc]))
    by_cases hb : b = a
    · subst hb
      simp only [Memory.insert]
      split <;> simp [Memory.read_cons, hx, ih]
    · have hab : ¬ a = b := fun h => hb h.symm
      simp only [Memory.insert]
      split <;> simp [Memory.read_cons, hb, hab, ih]

/-- A read after a write gives the value written at the same address, and the old one at any other. -/
theorem Memory.read_write (m : Memory) (a : Nat) (v : Word) (b : Nat) :
    (m.write a v).read b = if b = a then v else m.read b := by
  unfold Memory.write
  split
  · rename_i h
    simp only [Memory.read_erase, h]
    rfl
  · rw [Memory.read_insert _ _ _ (by simp)]
    by_cases hb : b = a
    · simp [hb]
    · simp [hb, Memory.read_erase]

theorem Memory.mem_insert (m : Memory) (a : Nat) (v : Word) (c : MemCell) :
    c ∈ m.insert a v ↔ c = (a, v) ∨ c ∈ m := by
  induction m with
  | nil => simp [Memory.insert]
  | cons d m ih =>
    obtain ⟨x, w⟩ := d
    simp only [Memory.insert]
    split
    · simp
    · simp only [List.mem_cons, ih]
      tauto

theorem Memory.insert_rising (m : Memory) (a : Nat) (v : Word) (hm : ∀ c ∈ m, c.1 ≠ a)
    (h : m.Pairwise (fun c d => c.1 < d.1)) : (m.insert a v).Pairwise (fun c d => c.1 < d.1) := by
  induction m with
  | nil => simp [Memory.insert]
  | cons d m ih =>
    obtain ⟨x, w⟩ := d
    have hx : x ≠ a := hm (x, w) (by simp)
    rw [List.pairwise_cons] at h
    simp only [Memory.insert]
    split
    · rename_i hlt
      refine List.pairwise_cons.2 ⟨?_, List.pairwise_cons.2 h⟩
      intro c hc
      rcases List.mem_cons.1 hc with rfl | hc
      · exact hlt
      · exact lt_trans hlt (h.1 c hc)
    · rename_i hlt
      refine List.pairwise_cons.2 ⟨?_, ih (fun c hc => hm c (by simp [hc])) h.2⟩
      intro c hc
      rcases (Memory.mem_insert m a v c).1 hc with rfl | hc
      · simp only
        omega
      · exact h.1 c hc

/-- A write inside the address space keeps the canonical form. -/
theorem Memory.write_keeps_wf {m : Memory} {a : Nat} (v : Word) (h : m.wf) (ha : a < 65536) : Memory.wf (m.write a v) := by
  have hf : (m.filter (fun c => c.1 != a)).Pairwise (fun c d => c.1 < d.1) := h.1.filter _
  have hmem : ∀ c ∈ m.filter (fun c => c.1 != a), c.1 ≠ a ∧ c ∈ m := by
    intro c hc
    simpa [and_comm] using hc
  unfold Memory.write
  split
  · exact ⟨hf, fun c hc => h.2 c (hmem c hc).2⟩
  · rename_i hv
    refine ⟨Memory.insert_rising _ a v (fun c hc => (hmem c hc).1) hf, ?_⟩
    intro c hc
    rcases (Memory.mem_insert _ a v c).1 hc with rfl | hc
    · exact ⟨ha, hv⟩
    · exact h.2 c (hmem c hc).2

/-- Loading words inside the address space keeps the canonical form. -/
theorem Memory.writeWords_keeps_wf (ws : List Word) {m : Memory} {a : Nat} (h : m.wf) (ha : a + ws.length ≤ 65536) :
    Memory.wf (m.writeWords a ws) := by
  induction ws generalizing m a with
  | nil => exact h
  | cons w ws ih =>
    rw [List.length_cons] at ha
    exact ih (Memory.write_keeps_wf w h (by omega)) (by omega)

theorem Memory.wf_nil : Memory.wf [] := ⟨List.Pairwise.nil, fun _ h => nomatch h⟩

/-- The memory right after reset is in canonical form. -/
theorem State.reset_mem_wf : State.reset.mem.wf := Memory.wf_nil

/-- A cell after a direct write. -/
theorem State.cell_setCell (s : State) (a v b : Word) : (s.setCell a v).cell b = if b = a then v else s.cell b := by
  show Memory.read _ _ = _
  rw [State.setCell_mem, Memory.read_write]
  simp only [BitVec.toNat_inj]
  rfl

/-- A direct cell write keeps the canonical form. -/
theorem State.setCell_keeps_wf {s : State} (a v : Word) (h : s.mem.wf) : (s.setCell a v).mem.wf :=
  Memory.write_keeps_wf v h a.isLt

end Sys2Proof.Machine
end

