-- ==== Sys2Proof/Laws/Ops.lean ====
section
/-! SUPPORT. What the shared operations can do, once each: the poll, a read, the character read, the string loop. -/

namespace Sys2Proof.Machine

/-! ## The keyboard poll -/

/-- What the host's answer to a poll does to its input (92_eei_decisions.md D11; log 11). -/
theorem HostInput.poll_cases (h : HostInput) :
    (∃ c ks, h.keys = ⟨0, c⟩ :: ks ∧ h.poll = (some c, { h with keys := ks })) ∨
    (∃ d c ks, h.keys = ⟨d + 1, c⟩ :: ks ∧ h.poll = (none, { h with keys := ⟨d, c⟩ :: ks })) ∨
    (h.keys = [] ∧ h.ends = true ∧ h.poll = (none, h)) ∨
    (h.keys = [] ∧ h.ends = false ∧ Config.pollDraw h.drawn = true ∧
      h.poll = (some (Config.hostChar h.drawn), { h with drawn := h.drawn + 1 })) ∨
    (h.keys = [] ∧ h.ends = false ∧ Config.pollDraw h.drawn = false ∧ h.poll = (none, { h with drawn := h.drawn + 1 })) := by
  obtain ⟨_ | ⟨⟨_ | d, c⟩, ks⟩, ends, drawn⟩ := h
  · cases ends
    · cases hd : Config.pollDraw drawn <;> simp [HostInput.poll, hd]
    · simp [HostInput.poll]
  · simp [HostInput.poll]
  · simp [HostInput.poll]

/-- A poll never ends or resumes the host's input. -/
@[simp] theorem HostInput.poll_ends (h : HostInput) : h.poll.2.ends = h.ends := by
  rcases h.poll_cases with ⟨c, ks, -, e⟩ | ⟨d, c, ks, -, e⟩ | ⟨-, -, e⟩ | ⟨-, -, -, e⟩ | ⟨-, -, -, e⟩ <;> rw [e]

/-- What a poll leaves, by its answer (20_memory.md R45). -/
theorem State.keyboardPoll_cases (s : State) :
    (∃ c h, s.host.poll = (some c, h) ∧
      s.keyboardPoll = ({ s with host := h }.setCell Config.kbsrAddr 0x8000#16).setCell Config.kbdrAddr (zextByte c)) ∨
    (∃ h, s.host.poll = (none, h) ∧ s.keyboardPoll = { s with host := h }.setCell Config.kbsrAddr 0x0000#16) := by
  unfold State.keyboardPoll
  split
  · rename_i c h heq
    exact .inl ⟨c, h, heq, rfl⟩
  · rename_i h heq
    exact .inr ⟨h, heq, rfl⟩

@[simp] theorem State.keyboardPoll_regs (s : State) : s.keyboardPoll.regs = s.regs := by
  rcases s.keyboardPoll_cases with ⟨c, h, -, e⟩ | ⟨h, -, e⟩ <;> rw [e] <;> rfl
@[simp] theorem State.keyboardPoll_pc (s : State) : s.keyboardPoll.pc = s.pc := by
  rcases s.keyboardPoll_cases with ⟨c, h, -, e⟩ | ⟨h, -, e⟩ <;> rw [e] <;> rfl
@[simp] theorem State.keyboardPoll_cond (s : State) : s.keyboardPoll.cond = s.cond := by
  rcases s.keyboardPoll_cases with ⟨c, h, -, e⟩ | ⟨h, -, e⟩ <;> rw [e] <;> rfl
@[simp] theorem State.keyboardPoll_run (s : State) : s.keyboardPoll.run = s.run := by
  rcases s.keyboardPoll_cases with ⟨c, h, -, e⟩ | ⟨h, -, e⟩ <;> rw [e] <;> rfl
@[simp] theorem State.keyboardPoll_console (s : State) : s.keyboardPoll.console = s.console := by
  rcases s.keyboardPoll_cases with ⟨c, h, -, e⟩ | ⟨h, -, e⟩ <;> rw [e] <;> rfl
@[simp] theorem State.keyboardPoll_diags (s : State) : s.keyboardPoll.diags = s.diags := by
  rcases s.keyboardPoll_cases with ⟨c, h, -, e⟩ | ⟨h, -, e⟩ <;> rw [e] <;> rfl
@[simp] theorem State.keyboardPoll_printing (s : State) : s.keyboardPoll.printing = s.printing := by
  rcases s.keyboardPoll_cases with ⟨c, h, -, e⟩ | ⟨h, -, e⟩ <;> rw [e] <;> rfl
@[simp] theorem State.keyboardPoll_host (s : State) : s.keyboardPoll.host = s.host.poll.2 := by
  rcases s.keyboardPoll_cases with ⟨c, h, e', e⟩ | ⟨h, e', e⟩ <;> rw [e, e'] <;> rfl

/-- A poll changes no cell but the two keyboard cells. -/
theorem State.cell_keyboardPoll_other (s : State) {a : Word} (h1 : a ≠ Config.kbsrAddr) (h2 : a ≠ Config.kbdrAddr) :
    s.keyboardPoll.cell a = s.cell a := by
  rcases s.keyboardPoll_cases with ⟨c, h, -, e⟩ | ⟨h, -, e⟩ <;> rw [e] <;>
    simp only [State.cell_setCell, h1, h2, if_false] <;> rfl

/-- A poll keeps the canonical form of the memory. -/
theorem State.keyboardPoll_keeps_wf {s : State} (h : s.mem.wf) : s.keyboardPoll.mem.wf := by
  rcases s.keyboardPoll_cases with ⟨c, h', -, e⟩ | ⟨h', -, e⟩ <;> rw [e]
  · exact State.setCell_keeps_wf _ _ (State.setCell_keeps_wf _ _ h)
  · exact State.setCell_keeps_wf _ _ h

/-! ## A read -/

theorem State.afterRead_other (s : State) {a : Word} (h : a ≠ Config.kbsrAddr) : s.afterRead a = s := by
  simp [State.afterRead, h]

theorem State.afterRead_kbsr (s : State) : s.afterRead Config.kbsrAddr = s.keyboardPoll := by
  simp [State.afterRead]

@[simp] theorem State.afterRead_regs (s : State) (a : Word) : (s.afterRead a).regs = s.regs := by
  unfold State.afterRead; split <;> simp
@[simp] theorem State.afterRead_pc (s : State) (a : Word) : (s.afterRead a).pc = s.pc := by
  unfold State.afterRead; split <;> simp
@[simp] theorem State.afterRead_cond (s : State) (a : Word) : (s.afterRead a).cond = s.cond := by
  unfold State.afterRead; split <;> simp
@[simp] theorem State.afterRead_run (s : State) (a : Word) : (s.afterRead a).run = s.run := by
  unfold State.afterRead; split <;> simp
@[simp] theorem State.afterRead_console (s : State) (a : Word) : (s.afterRead a).console = s.console := by
  unfold State.afterRead; split <;> simp
@[simp] theorem State.afterRead_diags (s : State) (a : Word) : (s.afterRead a).diags = s.diags := by
  unfold State.afterRead; split <;> simp
@[simp] theorem State.afterRead_printing (s : State) (a : Word) : (s.afterRead a).printing = s.printing := by
  unfold State.afterRead; split <;> simp
@[simp] theorem State.afterRead_reg (s : State) (a : Word) (r : Reg) : (s.afterRead a).reg r = s.reg r := by
  simp [State.reg_eq]

theorem State.cell_afterRead_other (s : State) (b : Word) {a : Word} (h1 : a ≠ Config.kbsrAddr)
    (h2 : a ≠ Config.kbdrAddr) : (s.afterRead b).cell a = s.cell a := by
  unfold State.afterRead
  split
  · exact s.cell_keyboardPoll_other h1 h2
  · rfl

theorem State.afterRead_keeps_wf {s : State} (a : Word) (h : s.mem.wf) : (s.afterRead a).mem.wf := by
  unfold State.afterRead
  split
  · exact State.keyboardPoll_keeps_wf h
  · exact h

@[simp] theorem State.memRead_fst (s : State) (a : Word) : (s.memRead a).1 = (s.afterRead a).cell a := rfl
@[simp] theorem State.memRead_snd (s : State) (a : Word) : (s.memRead a).2 = s.afterRead a := rfl

/-! ## The character read -/

/-- GETC's and IN's read: it waits, or the character is in R0 and nothing but R0 and the host's input changes. -/
theorem readCharToR0_cases (s : State) :
    (s.host.readChar = none ∧ readCharToR0 s = .fault (.waitingForInput s)) ∨
    (∃ c h, s.host.readChar = some (c, h) ∧
      readCharToR0 s = .next { s with regs := s.regs.set .r0 (zextByte c), host := h }) := by
  unfold readCharToR0 readCharWith
  split
  · rename_i h
    exact .inl ⟨h, rfl⟩
  · rename_i c h heq
    exact .inr ⟨c, h, heq, rfl⟩

theorem HostInput.readChar_eq_none {h : HostInput} : h.readChar = none ↔ h.keys = [] ∧ h.ends = true := by
  unfold HostInput.readChar
  split
  · rename_i heq
    simp [heq]
  · rename_i heq
    by_cases he : h.ends <;> simp [heq, he]

/-! ## The string loop -/

/-- One round of the loop. -/
theorem stringLoop_succ (kind : StringKind) (n : Nat) (a : Word) (s : State) :
    stringLoop kind (n + 1) a s =
      if (s.afterRead a).cell a = 0x0000#16 then s.afterRead a
      else stringLoop kind n (a + 1) ((s.afterRead a).writeText (kind.bytes ((s.afterRead a).cell a))) := rfl

/-- Whatever the loop leaves: only memory, the host's input, the console and the routine under way change, the memory only in
the keyboard cells, and the console only at its end. -/
theorem stringLoop_frame (kind : StringKind) (n : Nat) (a : Word) (s : State) :
    let t := stringLoop kind n a s
    t.regs = s.regs ∧ t.pc = s.pc ∧ t.cond = s.cond ∧ t.run = s.run ∧ t.diags = s.diags ∧
      (∃ bs, t.console = s.console ++ bs) ∧
      (∀ b : Word, b ≠ Config.kbsrAddr → b ≠ Config.kbdrAddr → t.cell b = s.cell b) ∧ (s.mem.wf → t.mem.wf) := by
  induction n generalizing a s with
  | zero => exact ⟨rfl, rfl, rfl, rfl, rfl, ⟨[], (List.append_nil _).symm⟩, fun _ _ _ => rfl, id⟩
  | succ n ih =>
    intro t
    simp only [t, stringLoop_succ]
    split
    · exact ⟨by simp, by simp, by simp, by simp, by simp, ⟨[], by simp⟩,
        fun b h1 h2 => s.cell_afterRead_other a h1 h2, State.afterRead_keeps_wf a⟩
    · obtain ⟨h1, h2, h3, h4, h5, ⟨bs, h6⟩, h7, h8⟩ :=
        ih (a + 1) ((s.afterRead a).writeText (kind.bytes ((s.afterRead a).cell a)))
      refine ⟨h1.trans (by simp), h2.trans (by simp), h3.trans (by simp), h4.trans (by simp), h5.trans (by simp),
        ⟨kind.bytes ((s.afterRead a).cell a) ++ bs, h6.trans (by simp)⟩, ?_, ?_⟩
      · intro b hb1 hb2
        rw [h7 b hb1 hb2]
        exact s.cell_afterRead_other a hb1 hb2
      · exact fun hw => h8 (State.afterRead_keeps_wf a hw)

/-- The loop ends with the routine's mark as it was, or leaves its own routine under way. -/
theorem stringLoop_printing (kind : StringKind) (n : Nat) (a : Word) (s : State) :
    (stringLoop kind n a s).printing = s.printing ∨ ∃ b, (stringLoop kind n a s).printing = some ⟨kind, b⟩ := by
  induction n generalizing a s with
  | zero => exact .inr ⟨a, rfl⟩
  | succ n ih =>
    rw [stringLoop_succ]
    split
    · exact .inl (by simp)
    · simpa using ih (a + 1) ((s.afterRead a).writeText (kind.bytes ((s.afterRead a).cell a)))

/-! ## The step -/

/-- What a step is, by the state it starts in: nothing in HALTED, the rest of a routine under way, or an instruction
(40_cycle.md R90, R91; log 14). -/
theorem step_cases (s : State) :
    (s.run = .halted ∧ step s = .next s) ∨
    (∃ p, s.run = .running ∧ s.printing = some p ∧
      step s = .next (stringLoop p.kind (stringFuel s) p.addr { s with printing := none })) ∨
    (s.run = .running ∧ s.printing = none ∧ step s = exec (decode (fetch s).1) (fetch s).2) := by
  obtain hr | hr : s.run = .halted ∨ s.run = .running := by cases s.run <;> simp
  · exact .inl ⟨hr, by simp only [step, hr]⟩
  · obtain hp | ⟨p, hp⟩ : s.printing = none ∨ ∃ p, s.printing = some p := by cases s.printing <;> simp
    · exact .inr (.inr ⟨hr, hp, by simp only [step, hr, hp]⟩)
    · have h : step s = resumeString p s := by simp only [step, hr, hp]
      exact .inr (.inl ⟨p, hr, hp, h⟩)

/-! ## The flag -/

/-- A flag is one of the three (10_state.md R24). -/
theorem flagOf_legal (v : Word) : flagOf v = Config.flagP ∨ flagOf v = Config.flagZ ∨ flagOf v = Config.flagN := by
  unfold flagOf
  split
  · exact .inr (.inl rfl)
  · split
    · exact .inr (.inr rfl)
    · exact .inl rfl

end Sys2Proof.Machine
end

