-- ==== Sys2Proof/Laws/PerInstr.lean ====
section
/-! SUPPORT. The family EncodesOpcode: the encoder puts the operation's number of 30_encoding.md R66 into bits 15:12. -/

namespace Sys2Proof.Laws.EncodesOpcode

/-- The opcode number of an operation (R66). -/
def opcodeOf : Instr → Nat
  | .addReg _ _ _ => 1
  | .addImm _ _ _ => 1
  | .andReg _ _ _ => 5
  | .andImm _ _ _ => 5
  | .not _ _ => 9
  | .br _ _ => 0
  | .jmp _ => 12
  | .jsr _ => 4
  | .jsrr _ => 4
  | .ld _ _ => 2
  | .ldi _ _ => 10
  | .ldr _ _ _ => 6
  | .lea _ _ => 14
  | .st _ _ => 3
  | .sti _ _ => 11
  | .str _ _ _ => 7
  | .trapGetc => 15
  | .trapOut => 15
  | .trapPuts => 15
  | .trapIn => 15
  | .trapPutsp => 15
  | .trapHalt => 15
  | .trapUnknown _ => 15
  | .rti _ => 8
  | .reserved13 _ => 13

/-- `encode i` carries the opcode of `i`. -/
def Statement (i : Instr) : Prop := i.wellFormed = true → (opcodeField (encode i)).toNat = opcodeOf i

/-- The four leading bits of a concatenation with a 12-bit rest. -/
theorem opcodeField_append (op : BitVec 4) (rest : BitVec 12) : opcodeField ((op ++ rest : BitVec 16)) = op := by
  have h := extract_append_high op rest 0 4
  simpa [opcodeField] using h

/-- A word of a given opcode. -/
theorem opcodeField_of_hasOpcode {op : Nat} {w : Word} (h : hasOpcode op w = true) : (opcodeField w).toNat = op := by
  have hw := w.isLt
  simp only [hasOpcode, beq_iff_eq] at h
  simp only [opcodeField, BitVec.extractLsb'_toNat, Nat.shiftRight_eq_div_pow]
  omega

theorem addReg (dr : Reg) (sr1 : Reg) (sr2 : Reg) : Statement (.addReg dr sr1 sr2) :=
  fun _ => by
    rw [show encode (.addReg dr sr1 sr2) = 0b0001#4 ++ (dr.toBits ++ sr1.toBits ++ 0b000#3 ++ sr2.toBits) by
      simp only [encode, BitVec.append_assoc, BitVec.cast_eq], opcodeField_append]
    rfl

theorem addImm (dr : Reg) (sr1 : Reg) (imm : Word) : Statement (.addImm dr sr1 imm) :=
  fun _ => by
    rw [show encode (.addImm dr sr1 imm) = 0b0001#4 ++ (dr.toBits ++ sr1.toBits ++ 1#1 ++ imm.setWidth 5) by
      simp only [encode, BitVec.append_assoc, BitVec.cast_eq], opcodeField_append]
    rfl

theorem andReg (dr : Reg) (sr1 : Reg) (sr2 : Reg) : Statement (.andReg dr sr1 sr2) :=
  fun _ => by
    rw [show encode (.andReg dr sr1 sr2) = 0b0101#4 ++ (dr.toBits ++ sr1.toBits ++ 0b000#3 ++ sr2.toBits) by
      simp only [encode, BitVec.append_assoc, BitVec.cast_eq], opcodeField_append]
    rfl

theorem andImm (dr : Reg) (sr1 : Reg) (imm : Word) : Statement (.andImm dr sr1 imm) :=
  fun _ => by
    rw [show encode (.andImm dr sr1 imm) = 0b0101#4 ++ (dr.toBits ++ sr1.toBits ++ 1#1 ++ imm.setWidth 5) by
      simp only [encode, BitVec.append_assoc, BitVec.cast_eq], opcodeField_append]
    rfl

theorem not (dr : Reg) (sr : Reg) : Statement (.not dr sr) :=
  fun _ => by
    rw [show encode (.not dr sr) = 0b1001#4 ++ (dr.toBits ++ sr.toBits ++ 0b111111#6) by
      simp only [encode, BitVec.append_assoc, BitVec.cast_eq], opcodeField_append]
    rfl

theorem br (nzp : BitVec 3) (off : Word) : Statement (.br nzp off) :=
  fun _ => by
    rw [show encode (.br nzp off) = 0b0000#4 ++ (nzp ++ off.setWidth 9) by
      simp only [encode, BitVec.append_assoc, BitVec.cast_eq], opcodeField_append]
    rfl

theorem jmp (baseR : Reg) : Statement (.jmp baseR) :=
  fun _ => by
    rw [show encode (.jmp baseR) = 0b1100#4 ++ (0b000#3 ++ baseR.toBits ++ 0b000000#6) by
      simp only [encode, BitVec.append_assoc, BitVec.cast_eq], opcodeField_append]
    rfl

theorem jsr (off : Word) : Statement (.jsr off) :=
  fun _ => by
    rw [show encode (.jsr off) = 0b0100#4 ++ (1#1 ++ off.setWidth 11) by
      simp only [encode, BitVec.append_assoc, BitVec.cast_eq], opcodeField_append]
    rfl

theorem jsrr (baseR : Reg) : Statement (.jsrr baseR) :=
  fun _ => by
    rw [show encode (.jsrr baseR) = 0b0100#4 ++ (0b000#3 ++ baseR.toBits ++ 0b000000#6) by
      simp only [encode, BitVec.append_assoc, BitVec.cast_eq], opcodeField_append]
    rfl

theorem ld (dr : Reg) (off : Word) : Statement (.ld dr off) :=
  fun _ => by
    rw [show encode (.ld dr off) = 0b0010#4 ++ (dr.toBits ++ off.setWidth 9) by
      simp only [encode, BitVec.append_assoc, BitVec.cast_eq], opcodeField_append]
    rfl

theorem ldi (dr : Reg) (off : Word) : Statement (.ldi dr off) :=
  fun _ => by
    rw [show encode (.ldi dr off) = 0b1010#4 ++ (dr.toBits ++ off.setWidth 9) by
      simp only [encode, BitVec.append_assoc, BitVec.cast_eq], opcodeField_append]
    rfl

theorem ldr (dr : Reg) (baseR : Reg) (off : Word) : Statement (.ldr dr baseR off) :=
  fun _ => by
    rw [show encode (.ldr dr baseR off) = 0b0110#4 ++ (dr.toBits ++ baseR.toBits ++ off.setWidth 6) by
      simp only [encode, BitVec.append_assoc, BitVec.cast_eq], opcodeField_append]
    rfl

theorem lea (dr : Reg) (off : Word) : Statement (.lea dr off) :=
  fun _ => by
    rw [show encode (.lea dr off) = 0b1110#4 ++ (dr.toBits ++ off.setWidth 9) by
      simp only [encode, BitVec.append_assoc, BitVec.cast_eq], opcodeField_append]
    rfl

theorem st (sr : Reg) (off : Word) : Statement (.st sr off) :=
  fun _ => by
    rw [show encode (.st sr off) = 0b0011#4 ++ (sr.toBits ++ off.setWidth 9) by
      simp only [encode, BitVec.append_assoc, BitVec.cast_eq], opcodeField_append]
    rfl

theorem sti (sr : Reg) (off : Word) : Statement (.sti sr off) :=
  fun _ => by
    rw [show encode (.sti sr off) = 0b1011#4 ++ (sr.toBits ++ off.setWidth 9) by
      simp only [encode, BitVec.append_assoc, BitVec.cast_eq], opcodeField_append]
    rfl

theorem str (sr : Reg) (baseR : Reg) (off : Word) : Statement (.str sr baseR off) :=
  fun _ => by
    rw [show encode (.str sr baseR off) = 0b0111#4 ++ (sr.toBits ++ baseR.toBits ++ off.setWidth 6) by
      simp only [encode, BitVec.append_assoc, BitVec.cast_eq], opcodeField_append]
    rfl

theorem trapGetc : Statement (.trapGetc) := fun _ => rfl

theorem trapOut : Statement (.trapOut) := fun _ => rfl

theorem trapPuts : Statement (.trapPuts) := fun _ => rfl

theorem trapIn : Statement (.trapIn) := fun _ => rfl

theorem trapPutsp : Statement (.trapPutsp) := fun _ => rfl

theorem trapHalt : Statement (.trapHalt) := fun _ => rfl

theorem trapUnknown (word : Word) : Statement (.trapUnknown word) := fun h => by
  simp only [Instr.wellFormed, Bool.and_eq_true] at h
  exact opcodeField_of_hasOpcode h.1

theorem rti (word : Word) : Statement (.rti word) := fun h => opcodeField_of_hasOpcode h

theorem reserved13 (word : Word) : Statement (.reserved13 word) := fun h => opcodeField_of_hasOpcode h

end Sys2Proof.Laws.EncodesOpcode
end

