-- ==== Sys2Proof/Tests/Slice0.lean ====
section
/-! SUPPORT. The model's own tests. Expected results are those of spec/95_test_vectors.md (W1-W8, V1-V108) or of the rule
named; and a witness for every statement that has hypotheses. -/

namespace Sys2Proof.Tests

open Sys2Proof.Machine

/-! ## Helpers -/

/-- A running state at `pc` with registers and cells set, COND = Z and a host that supplies `keys` and no more. -/
def start (pc : Word) (regs : List (Reg × Word)) (cells : List (Word × Word)) (keys : List Keystroke) : State :=
  let s := { State.reset with pc := pc, host := { keys := keys, ends := true, drawn := 0 } }
  let s := regs.foldl (fun u p => u.setReg p.1 p.2) s
  cells.foldl (fun u p => u.setCell p.1 p.2) s

/-- The outcome is a next state that passes `p`. -/
def nextIs (o : Host.Outcome State Fault Refusal) (p : State → Bool) : Bool :=
  match o with
  | .next t => p t
  | .fault _ => false
  | .refused _ => false

/-- One step with the word `w` at PC. -/
def runs (w : Word) (s : State) (p : State → Bool) : Bool := nextIs (step (s.setCell s.pc w)) p

/-! ## Well-formedness: an ill-formed term for each check -/

theorem test_wf_imm5_high : (Instr.addImm .r0 .r0 16#16).wellFormed = false := by decide
theorem test_wf_imm5_low : (Instr.andImm .r0 .r0 0xFFEF#16).wellFormed = false := by decide
theorem test_wf_off6_high : (Instr.ldr .r0 .r0 32#16).wellFormed = false := by decide
theorem test_wf_off6_low : (Instr.str .r0 .r0 0xFFDF#16).wellFormed = false := by decide
theorem test_wf_off9_high : (Instr.br 7#3 256#16).wellFormed = false := by decide
theorem test_wf_off9_low : (Instr.ld .r0 0xFEFF#16).wellFormed = false := by decide
theorem test_wf_off9_others : ((Instr.ldi .r0 256#16).wellFormed || (Instr.lea .r0 256#16).wellFormed ||
    (Instr.st .r0 256#16).wellFormed || (Instr.sti .r0 256#16).wellFormed) = false := by decide
theorem test_wf_off11_high : (Instr.jsr 1024#16).wellFormed = false := by decide
theorem test_wf_off11_low : (Instr.jsr 0xFBFF#16).wellFormed = false := by decide
theorem test_wf_known_vector : (Instr.trapUnknown 0xF025#16).wellFormed = false := by decide
theorem test_wf_trap_opcode : (Instr.trapUnknown 0x1000#16).wellFormed = false := by decide
theorem test_wf_rti_opcode : (Instr.rti 0xD000#16).wellFormed = false := by decide
theorem test_wf_reserved_opcode : (Instr.reserved13 0x8000#16).wellFormed = false := by decide

/-! ## Decoding: a word written out from R62 for every constructor (W5, 2.2) -/

theorem test_decode_addReg : decode 0b0001_000_001_0_00_010#16 = .addReg .r0 .r1 .r2 := by decide
theorem test_decode_addImm : decode 0b0001_001_001_1_11111#16 = .addImm .r1 .r1 0xFFFF#16 := by decide
theorem test_decode_andReg : decode 0b0101_000_001_0_00_010#16 = .andReg .r0 .r1 .r2 := by decide
theorem test_decode_andImm : decode 0b0101_011_011_1_10000#16 = .andImm .r3 .r3 0xFFF0#16 := by decide
theorem test_decode_not : decode 0b1001_101_110_111111#16 = .not .r5 .r6 := by decide
theorem test_decode_br : decode 0b0000_100_100000000#16 = .br 0b100#3 0xFF00#16 := by decide
theorem test_decode_jmp : decode 0b1100_000_010_000000#16 = .jmp .r2 := by decide
theorem test_decode_jsr : decode 0b0100_1_10000000000#16 = .jsr 0xFC00#16 := by decide
theorem test_decode_jsrr : decode 0b0100_000_011_000000#16 = .jsrr .r3 := by decide
theorem test_decode_ld : decode 0b0010_100_000000110#16 = .ld .r4 0x0006#16 := by decide
theorem test_decode_ldi : decode 0b1010_101_000000101#16 = .ldi .r5 0x0005#16 := by decide
theorem test_decode_ldr : decode 0b0110_011_010_100000#16 = .ldr .r3 .r2 0xFFE0#16 := by decide
theorem test_decode_lea : decode 0b1110_000_111111111#16 = .lea .r0 0xFFFF#16 := by decide
theorem test_decode_st : decode 0b0011_001_000000010#16 = .st .r1 0x0002#16 := by decide
theorem test_decode_sti : decode 0b1011_011_000000010#16 = .sti .r3 0x0002#16 := by decide
theorem test_decode_str : decode 0b0111_101_010_000010#16 = .str .r5 .r2 0x0002#16 := by decide
theorem test_decode_traps : [decode 0xF020#16, decode 0xF021#16, decode 0xF022#16, decode 0xF023#16, decode 0xF024#16,
    decode 0xF025#16] = [.trapGetc, .trapOut, .trapPuts, .trapIn, .trapPutsp, .trapHalt] := by decide
theorem test_decode_unknown_vectors : [decode 0xF01F#16, decode 0xF026#16, decode 0xFFFF#16] =
    [.trapUnknown 0xF01F#16, .trapUnknown 0xF026#16, .trapUnknown 0xFFFF#16] := by decide
theorem test_decode_rti : decode 0x8FFF#16 = .rti 0x8FFF#16 := by decide
theorem test_decode_reserved13 : decode 0xD123#16 = .reserved13 0xD123#16 := by decide
theorem test_decode_ignored_bits : [decode 0x1018#16, decode 0x47FF#16, decode 0x9000#16, decode 0xCFFF#16,
    decode 0xFF25#16] = [.addReg .r0 .r0 .r0, .jsrr .r7, .not .r0 .r0, .jmp .r7, .trapHalt] := by decide
theorem test_encode_words : [encode (.not .r5 .r5), encode (.jmp .r7), encode (.jsrr .r3), encode (.str .r5 .r2 2#16),
    encode (.br 0b011#3 0xFFFE#16), encode (.addImm .r1 .r1 0xFFFF#16)] =
    [0x9B7F#16, 0xC1C0#16, 0x40C0#16, 0x7A82#16, 0x07FE#16, 0x127F#16] := by decide
theorem test_decodeTableWord : decodeTableWord 16 0x1042 = some (.addReg .r0 .r1 .r2) := by decide

/-- W1. -/
theorem test_sext_5 : [sext 5 0b01011#16, sext 5 0b11011#16, sext 5 0b10000#16] = [0x000B#16, 0xFFFB#16, 0xFFF0#16] := by
  decide
/-- W1. -/
theorem test_sext_others : [sext 6 0x20#16, sext 9 0x100#16, sext 9 0x0FF#16, sext 11 0x400#16] =
    [0xFFE0#16, 0xFF00#16, 0x00FF#16, 0xFC00#16] := by decide
/-- W2. -/
theorem test_flags : [flagOf 0x0000#16, flagOf 0x8000#16, flagOf 0x0001#16, flagOf 0x7FFF#16, flagOf 0xFFFF#16] =
    [0x0002#16, 0x0004#16, 0x0001#16, 0x0001#16, 0x0004#16] := by decide

/-! ## One step (2.3-2.8) -/

/-- V1. -/
theorem test_add_overflow : runs 0x1042#16 (start 0x3000 [(.r1, 0x7FFF), (.r2, 1)] [] [])
    (fun t => t.reg .r0 == 0x8000 && t.cond == 4 && t.pc == 0x3001) = true := by decide
/-- V3. -/
theorem test_add_same_register : runs 0x1241#16 (start 0x3000 [(.r1, 0x8000)] [] [])
    (fun t => t.reg .r1 == 0 && t.cond == 2) = true := by decide
/-- V5. -/
theorem test_addImm_negative : runs 0x1270#16 (start 0x3000 [(.r1, 5)] [] [])
    (fun t => t.reg .r1 == 0xFFF5 && t.cond == 4) = true := by decide
/-- V8. -/
theorem test_and_zero : runs 0x5042#16 (start 0x3000 [(.r0, 0x1111), (.r1, 0xF0F0), (.r2, 0x0F0F)] [] [])
    (fun t => t.reg .r0 == 0 && t.cond == 2) = true := by decide
/-- V11. -/
theorem test_andImm_sign_extended : runs 0x5AF0#16 (start 0x3000 [(.r3, 0x1235)] [] [])
    (fun t => t.reg .r5 == 0x1230 && t.cond == 1) = true := by decide
/-- V14. -/
theorem test_not : runs 0x903F#16 (start 0x3000 [(.r0, 0x8000)] [] [])
    (fun t => t.reg .r0 == 0x7FFF && t.cond == 1) = true := by decide
/-- V26. -/
theorem test_br_wraps : runs 0x0E01#16 (start 0xFFFF [] [] []) (fun t => t.pc == 0x0001) = true := by decide
/-- V27. -/
theorem test_br_not_taken : runs 0x0A05#16 (start 0x3000 [] [] []) (fun t => t.pc == 0x3001) = true := by decide
/-- V29. -/
theorem test_jmp_ignored_bits : runs 0xCEBF#16 (start 0x3000 [(.r2, 0x1234)] [] []) (fun t => t.pc == 0x1234) = true := by
  decide
/-- V33. -/
theorem test_jsr : runs 0x4C00#16 (start 0x3000 [] [] []) (fun t => t.reg .r7 == 0x3001 && t.pc == 0x2C01) = true := by
  decide
/-- V35. -/
theorem test_jsrr_r7 : runs 0x41C0#16 (start 0x3000 [(.r7, 0x5000)] [] [])
    (fun t => t.reg .r7 == 0x3001 && t.pc == 0x3001) = true := by decide
/-- V36: the other value of JSRR_BASE_READ_FIRST, PC already incremented. -/
theorem test_jsrr_base_read_first : nextIs (jsrrWith true .r7 (start 0x3001 [(.r7, 0x5000)] [] []))
    (fun t => t.reg .r7 == 0x3001 && t.pc == 0x5000) = true := by decide
/-- V40. -/
theorem test_ld_itself : runs 0x21FF#16 (start 0x3000 [] [] []) (fun t => t.reg .r0 == 0x21FF && t.cond == 1) = true := by
  decide
/-- V42. -/
theorem test_ld_polls_key : runs 0x2200#16 (start 0xFDFF [] [] [⟨0, 0x6B⟩])
    (fun t => t.reg .r1 == 0x8000 && t.cond == 4 && t.cell 0xFE00 == 0x8000 && t.cell 0xFE02 == 0x006B && t.pc == 0xFE00 &&
      t.host.keys == []) = true := by decide
/-- V43. -/
theorem test_ld_polls_no_key : runs 0x2200#16 (start 0xFDFF [] [(0xFE00, 0x1234)] [⟨1, 0x6B⟩])
    (fun t => t.reg .r1 == 0 && t.cond == 2 && t.cell 0xFE00 == 0 && t.host.keys == [⟨0, 0x6B⟩]) = true := by decide
/-- V44. -/
theorem test_ldi_data_cell_no_poll : runs 0xA000#16 (start 0x3000 [] [(0x3001, 0xFE02), (0xFE02, 0x41)] [⟨0, 0x6B⟩])
    (fun t => t.reg .r0 == 0x41 && t.host.keys == [⟨0, 0x6B⟩]) = true := by decide
/-- V46. -/
theorem test_ldr_wraps : runs 0x607F#16 (start 0x3000 [] [(0xFFFF, 0x7FFF)] [])
    (fun t => t.reg .r0 == 0x7FFF && t.cond == 1) = true := by decide
/-- V51. -/
theorem test_lea_never_polls : runs 0xE1FE#16 (start 0xFE01 [] [] [⟨0, 0x41⟩])
    (fun t => t.reg .r0 == 0xFE00 && t.cond == 4 && t.pc == 0xFE02 && t.cell 0xFE00 == 0 && t.host.keys == [⟨0, 0x41⟩]) = true := by
  decide
/-- V60. -/
theorem test_st_over_itself : runs 0x31FF#16 (start 0x3000 [(.r0, 0xABCD)] [] [])
    (fun t => t.cell 0x3000 == 0xABCD && t.cond == 2) = true := by decide
/-- V63. -/
theorem test_str_wraps : runs 0x7441#16 (start 0x3000 [(.r1, 0xFFFF), (.r2, 0x5555)] [] [])
    (fun t => t.cell 0 == 0x5555) = true := by decide
/-- V65. -/
theorem test_sti_pointer_polls : runs 0xB000#16 (start 0xFDFF [(.r0, 0x7777)] [(0xFE00, 0x1234)] [])
    (fun t => t.cell 0xFE00 == 0 && t.cell 0 == 0x7777 && t.pc == 0xFE00) = true := by decide
/-- V66. -/
theorem test_sti_to_status_cell : runs 0xB000#16 (start 0x3000 [(.r0, 0x7777)] [(0x3001, 0xFE00)] [⟨0, 0x41⟩])
    (fun t => t.cell 0xFE00 == 0x7777 && t.host.keys == [⟨0, 0x41⟩]) = true := by decide
/-- V71. -/
theorem test_getc : runs 0xF020#16 (start 0x3000 [(.r0, 0xFFFF)] [] [⟨3, 0xE9⟩])
    (fun t => t.reg .r0 == 0x00E9 && t.cond == 2 && t.reg .r7 == 0 && t.console == [] && t.pc == 0x3001) = true := by decide
/-- V81 and V82: the other values of TRAP_LINKS_R7 and TRAP_SETS_CC, PC already incremented. -/
theorem test_getc_other_parameters : nextIs (readCharWith true (linkTrapWith true (start 0x3001 [] [] [⟨0, 0x41⟩])))
    (fun t => t.reg .r0 == 0x41 && t.reg .r7 == 0x3001 && t.cond == 1) = true := by decide
/-- V72. -/
theorem test_out : runs 0xF021#16 (start 0x3000 [(.r0, 0xFF41)] [] []) (fun t => t.console == [0x41] && t.pc == 0x3001) = true := by
  decide
/-- V73. -/
theorem test_puts_wraps : runs 0xF022#16 (start 0x3000 [(.r0, 0xFFFE)] [(0xFFFE, 0x41), (0xFFFF, 0x42)] [])
    (fun t => t.console == [0x41, 0x42] && t.reg .r0 == 0xFFFE) = true := by decide
/-- V84. -/
theorem test_puts_polls : runs 0xF022#16 (start 0x3000 [(.r0, 0xFDFF)] [(0xFDFF, 0x41), (0xFE00, 0x42)] [])
    (fun t => t.console == [0x41] && t.cell 0xFE00 == 0) = true := by decide
/-- V78: the prompt is left out of the comparison, since its text is open. -/
theorem test_in : runs 0xF023#16 (start 0x3000 [] [] [⟨0, 0x71⟩]) (fun t => t.reg .r0 == 0x71 && t.pc == 0x3001) = true := by
  decide
/-- V76. -/
theorem test_putsp : runs 0xF024#16 (start 0x3000 [(.r0, 0x4000)] [(0x4000, 0x4241), (0x4001, 0x43)] [])
    (fun t => t.console == [0x41, 0x42, 0x43]) = true := by decide
/-- R144 in parts (log 14): after one read the loop stands at the next address, with one byte written. -/
theorem test_string_in_parts :
    let t := stringLoop .puts 1 0x4000 (start 0x3001 [(.r0, 0x4000)] [(0x4000, 0x41), (0x4001, 0x42)] [])
    t.console = [0x41] ∧ t.printing = some ⟨.puts, 0x4001⟩ := by decide
/-- V77. -/
theorem test_putsp_low_zero : runs 0xF024#16 (start 0x3000 [(.r0, 0x4000)] [(0x4000, 0x4100)] [])
    (fun t => t.console == [0x00, 0x41]) = true := by decide
/-- V79. -/
theorem test_halt : runs 0xF025#16 (start 0x3000 [(.r0, 0x1111)] [] [])
    (fun t => t.run == .halted && t.pc == 0x3001 && t.reg .r0 == 0x1111 && t.cond == 2) = true := by decide
/-- V90. -/
theorem test_rti : runs 0x8ABC#16 (start 0x4000 [] [] []) (fun t => t.diags == [⟨0x8ABC, 0x4001⟩] && t.pc == 0x4001) = true := by
  decide
/-- V91. -/
theorem test_reserved13 : runs 0xDFFF#16 (start 0x3000 [(.r1, 0x1234)] [] [])
    (fun t => t.diags == [⟨0xDFFF, 0x3001⟩] && t.reg .r1 == 0x1234 && t.cond == 2) = true := by decide
/-- V93. -/
theorem test_unknown_vector : runs 0xFF26#16 (start 0x3000 [(.r7, 0x2222)] [] [])
    (fun t => t.diags == [⟨0xFF26, 0x3001⟩] && t.reg .r7 == 0x2222) = true := by decide
/-- V96. -/
theorem test_fetch_polls : nextIs (step (start 0xFE00 [] [] [⟨0, 0x7A⟩]))
    (fun t => t.diags == [⟨0x8000, 0xFE01⟩] && t.cell 0xFE00 == 0x8000 && t.cell 0xFE02 == 0x7A && t.pc == 0xFE01) = true := by
  decide
/-- R14, R24: memory stays canonical when a cell is set back to zero. -/
theorem test_zero_is_not_listed : ((start 0x3000 [] [(5, 7), (3, 9)] []).setCell 5 0).mem = [(3, 9)] := by decide

/-! ## Images (2.9) -/

/-- V106. -/
theorem test_later_image_wins : (loadImages [] [[0x30, 0, 0x11, 0x11, 0x22, 0x22], [0x30, 1, 0x33, 0x33]]).toOption =
    some [(0x3000, 0x1111), (0x3001, 0x3333)] := by decide
/-- V102, V103, V105. -/
theorem test_images_refused : [loadImage [] [0x30], loadImage [] [0x30, 0, 0x12], loadImage [] [0xFF, 0xFF, 0, 1, 0, 2]].map
    (fun r => match r with | .ok _ => Option.none | .error e => some e) =
    [some .truncatedHeader, some .oddLength, some .pastEnd] := by decide
/-- V104. -/
theorem test_image_at_the_end : (loadImage [] [0xFF, 0xFF, 0xAB, 0xCD]).toOption = some [(0xFFFF, 0xABCD)] := by decide
/-- V108. -/
theorem test_no_image : (boot []).toOption = none := by decide

/-! ## Witnesses: states and operands that meet the hypotheses of each statement -/

/-- DecodeOfEncodeGivesInstruction, at the ends of an operand's range. -/
theorem witness_wellFormed : (Instr.addImm .r1 .r1 0xFFF0#16).wellFormed = true ∧ (Instr.ldr .r7 .r0 31#16).wellFormed = true ∧
    (Instr.lea .r0 0xFF00#16).wellFormed = true ∧ (Instr.jsr 1023#16).wellFormed = true ∧
    (Instr.trapUnknown 0xF026#16).wellFormed = true := by decide
/-- IgnoredBitsDoNotChangeDecode. -/
theorem witness_ignored_bits : 0x903F#16 &&& readMask 0x9000#16 = 0x9000#16 &&& readMask 0x9000#16 ∧
    0x903F#16 ≠ 0x9000#16 := by decide
/-- InvalidExactlyReservedOrUnknownVector, ReservedOpcodesReportAndContinue, UnknownVectorReportsAndContinues. -/
theorem witness_invalid_words : (0x8FFF#16 : Word).extractLsb' 12 4 = 8#4 ∧ (0xD000#16 : Word).extractLsb' 12 4 = 13#4 ∧
    (0xF01F#16 : Word).extractLsb' 12 4 = 15#4 ∧ ((0xF01F#16 : Word).extractLsb' 0 8).toNat < 0x20 ∧
    (0xF026#16 : Word).extractLsb' 12 4 = 15#4 ∧ 0x25 < ((0xF026#16 : Word).extractLsb' 0 8).toNat := by decide
/-- DecodeReadsTheFieldsOfEachFormat: a word, with the ignored bits set, for each row. -/
theorem witness_rows : (0x1FDF#16 : Word) &&& 0xF020#16 = 0x1000#16 ∧ (0x1FFF#16 : Word) &&& 0xF020#16 = 0x1020#16 ∧
    (0x5FDF#16 : Word) &&& 0xF020#16 = 0x5000#16 ∧ (0x5FFF#16 : Word) &&& 0xF020#16 = 0x5020#16 ∧
    (0x9FFF#16 : Word) &&& 0xF000#16 = 0x9000#16 ∧ (0x0FFF#16 : Word) &&& 0xF000#16 = 0x0000#16 ∧
    (0xCFFF#16 : Word) &&& 0xF000#16 = 0xC000#16 ∧ (0x4FFF#16 : Word) &&& 0xF800#16 = 0x4800#16 ∧
    (0x47FF#16 : Word) &&& 0xF800#16 = 0x4000#16 ∧ (0x2FFF#16 : Word) &&& 0xF000#16 = 0x2000#16 ∧
    (0xAFFF#16 : Word) &&& 0xF000#16 = 0xA000#16 ∧ (0x6FFF#16 : Word) &&& 0xF000#16 = 0x6000#16 ∧
    (0xEFFF#16 : Word) &&& 0xF000#16 = 0xE000#16 ∧ (0x3FFF#16 : Word) &&& 0xF000#16 = 0x3000#16 ∧
    (0xBFFF#16 : Word) &&& 0xF000#16 = 0xB000#16 ∧ (0x7FFF#16 : Word) &&& 0xF000#16 = 0x7000#16 ∧
    (0xFF20#16 : Word) &&& 0xF0FF#16 = 0xF020#16 ∧ (0xFF21#16 : Word) &&& 0xF0FF#16 = 0xF021#16 ∧
    (0xFF22#16 : Word) &&& 0xF0FF#16 = 0xF022#16 ∧ (0xFF23#16 : Word) &&& 0xF0FF#16 = 0xF023#16 ∧
    (0xFF24#16 : Word) &&& 0xF0FF#16 = 0xF024#16 ∧ (0xFF25#16 : Word) &&& 0xF0FF#16 = 0xF025#16 := by decide
/-- ExtensionFollowsTopBit: each of the four widths meets its hypothesis. -/
theorem witness_widths : ∀ n ∈ [5, 6, 9, 11], n = 5 ∨ n = 6 ∨ n = 9 ∨ n = 11 := by decide
/-- StepKeepsInvariant. -/
theorem witness_invariant_step : State.reset.Inv ∧ ∃ t, step State.reset = .next t :=
  ⟨⟨Memory.wf_nil, by decide, fun _ => rfl⟩, _, rfl⟩
/-- BootedStateMeetsInvariant (W6). -/
theorem witness_boot : ∃ s, boot [[0x30, 0x00, 0x12, 0x34]] = .ok s := ⟨_, rfl⟩
/-- LoadImagePlacesWordsAtOrigin, LaterImageReplacesEarlier: an image that ends at 0xFFFF and one of 2 bytes (V104, V101). -/
theorem witness_images : imageLoads [0xFF, 0xFF, 0xAB, 0xCD] ∧ imageLoads [0x30, 0x00] ∧
    loadImages [] [[0x30, 0, 0x11, 0x11]] = .ok [(0x3000, 0x1111)] := ⟨by decide, by decide, rfl⟩
/-- ReadPollsOnlyAtStatusCell: the status cell, and its two neighbours that do not poll. -/
theorem witness_read_addresses : (0xFE00#16 : Word) = Config.kbsrAddr ∧ (0xFE01#16 : Word) ≠ Config.kbsrAddr ∧
    Config.kbdrAddr ≠ Config.kbsrAddr := by decide
/-- KeyboardPollSetsItsTwoCells, PollTakesOnlyAnAvailableCharacter: a pending key, a key not yet pending, an ended input. -/
theorem witness_polls : (start 0x3000 [] [] [⟨0, 0x78⟩]).host.poll = (some 0x78, { keys := [], ends := true, drawn := 0 }) ∧
    (start 0x3000 [] [] [⟨1, 0x78⟩]).host.poll = (none, { keys := [⟨0, 0x78⟩], ends := true, drawn := 0 }) ∧
    (start 0x3000 [] [] []).host.readChar = none := by decide
/-- CanonicalMemoriesThatReadAlikeAreEqual: the last address, and a memory that lists it. -/
theorem witness_canonical : Memory.wf [(3, 9), (65535, 1)] ∧ 65535 < 65536 ∧ ∀ a, Memory.read [(3, 9)] a = Memory.read [(3, 9)] a :=
  ⟨by decide, by decide, fun _ => rfl⟩
/-- StepRunsDecodedInstruction, StepRunsEncodedInstruction. -/
theorem witness_encoded_at_pc : (start 0x3000 [] [(0x3000, 0x1042)] []).ready ∧
    (start 0x3000 [] [(0x3000, 0x1042)] []).pc ≠ Config.kbsrAddr ∧ (Instr.addReg .r0 .r1 .r2).wellFormed = true ∧
    (start 0x3000 [] [(0x3000, 0x1042)] []).cell (start 0x3000 [] [(0x3000, 0x1042)] []).pc = encode (.addReg .r0 .r1 .r2) := by
  decide
/-- FetchAtStatusCellRunsPolledWord, with and without a key. -/
theorem witness_fetch_at_status : (start 0xFE00 [] [] [⟨0, 0x7A⟩]).ready ∧ (start 0xFE00 [] [] []).ready ∧
    (start 0xFE00 [] [] [⟨0, 0x7A⟩]).pc = Config.kbsrAddr ∧
    (start 0xFE00 [] [] [⟨0, 0x7A⟩]).host.poll = (some 0x7A, { keys := [], ends := true, drawn := 0 }) ∧
    (start 0xFE00 [] [] []).host.poll = (none, { keys := [], ends := true, drawn := 0 }) := by decide
/-- PlacedWordRunsNext: the clause away from the status cell. -/
theorem witness_placed : State.reset.pc ≠ Config.kbsrAddr := by decide
/-- StoreIsSeenByNextFetch: ST with offset 0 (V61), STR with the base at the next address, STI through the pointer at 0x3006. -/
theorem witness_store_ahead :
    let s := start 0x3000 [(.r0, 0xF025), (.r1, 0x3001)] [(0x3006, 0x3001)] []
    let u := { s with pc := s.pc + 1 }
    s.ready ∧ s.pc ≠ Config.kbsrAddr ∧ s.pc + 1 ≠ Config.kbsrAddr ∧
      (s.setCell 0x3000 0x3000).cell 0x3000 = encode (.st .r0 0) ∧ pcRelative 0 u = u.pc ∧
      (s.setCell 0x3000 0x7040).cell 0x3000 = encode (.str .r0 .r1 0) ∧ baseOffset .r1 0 u = u.pc ∧
      (s.setCell 0x3000 0xB005).cell 0x3000 = encode (.sti .r0 5) ∧ (pointerAt 5 u).1 = u.pc := by decide
/-- HaltedCoreChangesNothing, and the third clause of OnlyHaltChangesRunState. -/
theorem witness_halted : State.reset.halt.run = .halted ∧ ∃ t, step State.reset.halt = .next t := ⟨rfl, _, rfl⟩
/-- OnlyHaltChangesRunState: a next state of HALT and of another instruction. -/
theorem witness_halt_and_other : (∃ t, exec .trapHalt State.reset = .next t) ∧ ∃ t, exec (.not .r0 .r0) State.reset = .next t :=
  ⟨⟨_, rfl⟩, _, rfl⟩
/-- OnlyHaltChangesRunState, its last clause: a step that starts HALT. -/
theorem witness_halt_step : (start 0x3000 [] [(0x3000, 0xF025)] []).ready ∧
    decode (fetch (start 0x3000 [] [(0x3000, 0xF025)] [])).1 = .trapHalt ∧
    ∃ t, step (start 0x3000 [] [(0x3000, 0xF025)] []) = .next t := ⟨by decide, by decide, _, rfl⟩
/-- OnlyTransfersWritePc: an instruction that transfers nothing, from a running state, in exec and in a step. -/
theorem witness_no_transfer : (start 0x3000 [] [(0x3000, 0x1042)] []).ready ∧ (Instr.trapOut).transfersControl = false ∧ (∃ t, exec .trapOut State.reset = .next t) ∧
    (decode (fetch (start 0x3000 [] [(0x3000, 0x1042)] [])).1).transfersControl = false ∧
    ∃ t, step (start 0x3000 [] [(0x3000, 0x1042)] []) = .next t := ⟨by decide, rfl, ⟨_, rfl⟩, by decide, _, rfl⟩
/-- OnlyResultInstructionsWriteCond, OnlyBrReadsCond: an instruction with a result and one without, neither of them BR. -/
theorem witness_result_and_none : (∃ t, exec (.lea .r3 0xFF00#16) State.reset = .next t) ∧
    (∃ t, exec (.jsrr .r7) State.reset = .next t) ∧ ∀ nzp off, Instr.jsrr .r7 ≠ .br nzp off :=
  ⟨⟨_, rfl⟩, ⟨_, rfl⟩, fun _ _ h => nomatch h⟩
/-- OtherRegistersKeepTheirValue. -/
theorem witness_other_register : Reg.r6 ∉ (Instr.jsr 0).writtenRegs ∧ ∃ t, exec (.jsr 0) State.reset = .next t :=
  ⟨by decide, _, rfl⟩
/-- OnlyStoresAndPollsChangeMemory: an instruction of each use, and an address next to the status cell. -/
theorem witness_memory_uses : (Instr.trapHalt).memoryUse = .none ∧ (∃ t, exec .trapHalt State.reset = .next t) ∧
    (Instr.ldi .r0 0).memoryUse = .reads ∧ (∃ t, exec (.ldi .r0 0) State.reset = .next t) ∧
    (0xFE01#16 : Word) ≠ Config.kbsrAddr ∧ (0xFE01#16 : Word) ≠ Config.kbdrAddr :=
  ⟨rfl, ⟨_, rfl⟩, rfl, ⟨_, rfl⟩, by decide, by decide⟩
/-- LoadsAwayFromStatusCellChangeNoCell: LD at the address before the status cell, LDI and LDR from reset. -/
theorem witness_loads_away : (∃ t, exec (.ld .r0 0xFF#16) (start 0xFD00 [] [] []) = .next t) ∧
    (start 0xFD00 [] [] []).pc + 0xFF#16 ≠ Config.kbsrAddr ∧ (∃ t, exec (.ldi .r0 0) State.reset = .next t) ∧
    State.reset.pc + 0 ≠ Config.kbsrAddr ∧ State.reset.cell (State.reset.pc + 0) ≠ Config.kbsrAddr ∧
    (∃ t, exec (.ldr .r0 .r1 0xFFFF#16) State.reset = .next t) ∧ State.reset.reg .r1 + 0xFFFF#16 ≠ Config.kbsrAddr :=
  ⟨⟨_, rfl⟩, by decide, ⟨_, rfl⟩, by decide, by decide, ⟨_, rfl⟩, by decide⟩
/-- HostSideFrame: an instruction that touches nothing of the host, and an Invalid. -/
theorem witness_host_frame : (∃ t, exec (.br 7#3 0) State.reset = .next t) ∧ (Instr.br 7#3 0).writesConsole = false ∧
    (Instr.br 7#3 0).isInvalid = false ∧ (Instr.br 7#3 0).memoryUse = .none ∧ (Instr.br 7#3 0).readsChar = false ∧
    Instr.br 7#3 0 ≠ .trapPuts ∧ Instr.br 7#3 0 ≠ .trapPutsp ∧
    (∃ t, exec (.rti 0x8000#16) State.reset = .next t) ∧ (Instr.rti 0x8000#16).isInvalid = true :=
  ⟨⟨_, rfl⟩, rfl, rfl, rfl, rfl, by decide, by decide, ⟨_, rfl⟩, rfl⟩
/-- BrIsTakenByTheCurrentFlag: the three values of COND. -/
theorem witness_cond_legal : (State.resetWith Config.flagP).condLegal ∧ (State.resetWith Config.flagZ).condLegal ∧
    (State.resetWith Config.flagN).condLegal := by decide
/-- GetcReadsOneCharacter, InPromptsThenReadsOneCharacter: a listed key, a host that goes on, a host that has ended. -/
theorem witness_character_sources : (start 0x3000 [] [] [⟨2, 0x41⟩]).host.keys = ⟨2, 0x41⟩ :: [] ∧
    (State.reset.host.keys = [] ∧ State.reset.host.ends = false) ∧
    ((start 0x3000 [] [] []).host.keys = [] ∧ (start 0x3000 [] [] []).host.ends = true) := by decide
/-- PutsWritesLowBytesOfString, PutspWritesPackedBytesOfString: a string that ends in the cell before the status cell, one
that wraps (V73), and an empty one (V74). -/
theorem witness_strings : stringAt (start 0x3000 [(.r0, 0xFDFE)] [(0xFDFE, 0x41)] []) 0xFDFE#16 [0x41#16] ∧
    stringAt (start 0x3000 [(.r0, 0xFFFE)] [(0xFFFE, 0x41), (0xFFFF, 0x42)] []) 0xFFFE#16 [0x41#16, 0x42#16] ∧
    stringAt (start 0x3000 [(.r0, 0x4000)] [] []) 0x4000#16 [] := by
  simp only [stringAt]; decide
/-- StringRoutinesFollowTheLoop: both sides hold of an empty string (V74). -/
theorem witness_string_run : (start 0x3000 [(.r0, 0x4000)] [] []).ready ∧
    (∃ u, StringRun (fun w => [w.extractLsb' 0 8]) 0x4000 (start 0x3000 [(.r0, 0x4000)] [] []) u) ∧
    ∃ t, exec .trapPuts (start 0x3000 [(.r0, 0x4000)] [] []) = .next t ∧ RoutineEnds t t :=
  ⟨by decide, ⟨_, .exit _ _ (by decide)⟩, _, rfl, .ended _ rfl⟩
/-- StringRoutinesEndWhenInputEnds. -/
theorem witness_input_ends : (start 0x3000 [] [] []).host.ends = true ∧ (start 0x3000 [] [] []).printing = none := by decide
/-- A state in which PUTS is under way at 0x4001, the string "AB" half written. -/
def halfPrinted : State :=
  { start 0x3001 [(.r0, 0x4000)] [(0x4000, 0x41), (0x4001, 0x42)] [] with
    console := [0x41], printing := some ⟨.puts, 0x4001⟩ }
/-- RoutineUnderWayOnlyPrints, and the other case of the last clause of OnlyHaltChangesRunState. -/
theorem witness_under_way : halfPrinted.run = .running ∧ halfPrinted.printing = some ⟨.puts, 0x4001⟩ ∧
    ∃ t, step halfPrinted = .next t := ⟨rfl, rfl, _, rfl⟩
/-- InvalidInstructionsOnlyReport: its three constructors. -/
theorem witness_invalid_instructions : ((Instr.rti 0x8000#16).isInvalid && (Instr.rti 0x8000#16).wellFormed &&
    (Instr.reserved13 0xDFFF#16).isInvalid && (Instr.reserved13 0xDFFF#16).wellFormed &&
    (Instr.trapUnknown 0xF0FF#16).isInvalid && (Instr.trapUnknown 0xF0FF#16).wellFormed) = true := by decide

/-- R144 in parts (log 14): the next step writes the rest and ends the routine, PC and R0 as they were. -/
theorem test_string_resumes : nextIs (step halfPrinted)
    (fun t => t.console == [0x41, 0x42] && t.printing == none && t.pc == 0x3001 && t.reg .r0 == 0x4000) = true := by decide

/-! ## The host's two questions, on the first and on the awkward rows -/

theorem test_fetch_word_add : nextIs (step (State.reset.withFetchWord 16 0x1042)) (fun t => t.pc == 0x3001 && t.cond == 2) = true := by
  decide
theorem test_fetch_word_getc : nextIs (step (State.reset.withFetchWord 16 0xF020)) (fun t => t.pc == 0x3001) = true := by decide
theorem test_fetch_word_puts : nextIs (step (State.reset.withFetchWord 16 0xF022)) (fun t => t.pc == 0x3001) = true := by decide

end Sys2Proof.Tests
end

/-! The operations of 00_scope.md: sign and zero extension bit by bit (R11) and SetCC (R14). -/

namespace Sys2Proof

/-! ## Sign and zero extension -/

/-- Bit by bit, `sext_N` keeps the low N bits and copies bit N-1 into the bits above. -/
theorem getLsbD_sext {n k : Nat} (hn : 0 < n) (hk : k < 16) (v : Word) :
    (sext n v).getLsbD k = if k < n then v.getLsbD k else v.getLsbD (n - 1) := by
  have hmsb : (v.setWidth n).msb = v.getLsbD (n - 1) := by
    rw [BitVec.msb_eq_getLsbD_last, BitVec.getLsbD_setWidth, decide_eq_true (by omega), Bool.true_and]
  rw [sext, BitVec.getLsbD_signExtend, hmsb, BitVec.getLsbD_setWidth, decide_eq_true hk, Bool.true_and]
  by_cases hkn : k < n <;> simp [hkn]

/-- The mask of the bits below n. -/
theorem getLsbD_lowMask {n k : Nat} (hn : n ≤ 16) : (0xFFFF#16 >>> (16 - n)).getLsbD k = decide (k < n) := by
  rw [BitVec.getLsbD_ushiftRight, show 0xFFFF#16 = BitVec.allOnes 16 from rfl, BitVec.getLsbD_allOnes]
  exact decide_eq_decide.2 (by omega)

/-- The mask of the bits from n upward. -/
theorem getLsbD_highMask {n k : Nat} (hk : k < 16) : (0xFFFF#16 <<< n).getLsbD k = !decide (k < n) := by
  rw [BitVec.getLsbD_shiftLeft, show 0xFFFF#16 = BitVec.allOnes 16 from rfl, BitVec.getLsbD_allOnes,
    decide_eq_true hk, Bool.true_and, decide_eq_true (show k - n < 16 by omega), Bool.and_true]

/-- R11's formula for `sext_N`, at every width. -/
theorem sext_eq_masked {n : Nat} (hn : 0 < n) (hn16 : n ≤ 16) (v : Word) :
    sext n v = if v.getLsbD (n - 1) then (v &&& (0xFFFF#16 >>> (16 - n))) ||| (0xFFFF#16 <<< n)
      else v &&& (0xFFFF#16 >>> (16 - n)) := by
  apply BitVec.eq_of_getLsbD_eq
  intro k hk
  rw [getLsbD_sext hn hk]
  cases v.getLsbD (n - 1) with
  | false =>
    rw [if_neg Bool.false_ne_true, BitVec.getLsbD_and, getLsbD_lowMask hn16]
    by_cases hkn : k < n <;> simp [hkn]
  | true =>
    rw [if_pos rfl, BitVec.getLsbD_or, BitVec.getLsbD_and, getLsbD_lowMask hn16, getLsbD_highMask hk]
    by_cases hkn : k < n <;> simp [hkn]

/-- R11's formula for `zext_8`. -/
theorem zextByte_lowByte (v : Word) : zextByte (lowByte v) = v &&& 0x00FF#16 := by
  apply BitVec.eq_of_getLsbD_eq
  intro k hk
  have hmask : (0x00FF#16).getLsbD k = decide (k < 8) := getLsbD_lowMask (n := 8) (by decide)
  rw [BitVec.getLsbD_and, hmask]
  simp [zextByte, lowByte, hk, Bool.and_comm]

/-- Settles O8: the formulas hold at every width from 1 to 16, so at the rule's four. -/
theorem extensionFollowsTopBit : Obligations.ExtensionFollowsTopBit := by
  refine ⟨fun n hn v => ?_, zextByte_lowByte⟩
  exact sext_eq_masked (by omega) (by omega) v

/-! ## SetCC -/

namespace Machine

/-- Bit 15 of a word is 1 exactly when the word is at least 0x8000. -/
theorem getLsbD_15_iff (v : Word) : v.getLsbD 15 = true ↔ 0x8000 ≤ v.toNat := by
  rw [show v.getLsbD 15 = v.msb from v.msb_eq_getLsbD_last.symm, BitVec.msb_eq_decide, decide_eq_true_iff]

/-- The flag of a value, by its number. -/
theorem flagOf_eq_ite_toNat (v : Word) : flagOf v =
    if v.toNat = 0 then Config.flagZ else if 0x8000 ≤ v.toNat then Config.flagN else Config.flagP := by
  have hzero : v = 0x0000#16 ↔ v.toNat = 0 := BitVec.toNat_inj.symm
  simp only [flagOf, hzero, getLsbD_15_iff]

/-- Settles O36: SetCC writes the flag of the value into COND and nothing else. -/
theorem setCCWritesTheFlagOfTheValue : Obligations.SetCCWritesTheFlagOfTheValue := by
  intro s v
  rw [State.setCC, flagOf_eq_ite_toNat]

end Machine

end Sys2Proof

/-! The rules of 10_state.md: the state after reset (R30), what an instruction may change (R23, R24, R26, R28, R21), and that
only BR reads COND (R27). One inversion lemma, `exec_effect`, says what a completed instruction did; the rules are read off it. -/

namespace Sys2Proof.Machine

/-! ## A series of reads -/

/-- The state that reads at the addresses `as`, in this order, leave. -/
def State.afterReads (s : State) (as : List Word) : State := as.foldl State.afterRead s

@[simp] theorem State.afterReads_nil (s : State) : s.afterReads [] = s := rfl
@[simp] theorem State.afterReads_cons (s : State) (a : Word) (as : List Word) :
    s.afterReads (a :: as) = (s.afterRead a).afterReads as := rfl

@[simp] theorem State.afterReads_regs (s : State) (as : List Word) : (s.afterReads as).regs = s.regs := by
  induction as generalizing s with
  | nil => rfl
  | cons a as ih => simp [ih]

@[simp] theorem State.afterReads_pc (s : State) (as : List Word) : (s.afterReads as).pc = s.pc := by
  induction as generalizing s with
  | nil => rfl
  | cons a as ih => simp [ih]

@[simp] theorem State.afterReads_cond (s : State) (as : List Word) : (s.afterReads as).cond = s.cond := by
  induction as generalizing s with
  | nil => rfl
  | cons a as ih => simp [ih]

@[simp] theorem State.afterReads_run (s : State) (as : List Word) : (s.afterReads as).run = s.run := by
  induction as generalizing s with
  | nil => rfl
  | cons a as ih => simp [ih]

theorem State.afterReads_keeps_wf {s : State} (as : List Word) (h : s.mem.wf) : (s.afterReads as).mem.wf := by
  induction as generalizing s with
  | nil => exact h
  | cons a as ih => exact ih (State.afterRead_keeps_wf a h)

/-! ## The string loop, field by field -/

section
variable (kind : StringKind) (n : Nat) (a : Word) (s : State)

@[simp] theorem stringLoop_regs : (stringLoop kind n a s).regs = s.regs := by
  obtain ⟨hregs, -⟩ := stringLoop_frame kind n a s
  exact hregs

@[simp] theorem stringLoop_pc : (stringLoop kind n a s).pc = s.pc := by
  obtain ⟨-, hpc, -⟩ := stringLoop_frame kind n a s
  exact hpc

@[simp] theorem stringLoop_cond : (stringLoop kind n a s).cond = s.cond := by
  obtain ⟨-, -, hcond, -⟩ := stringLoop_frame kind n a s
  exact hcond

@[simp] theorem stringLoop_run : (stringLoop kind n a s).run = s.run := by
  obtain ⟨-, -, -, hrun, -⟩ := stringLoop_frame kind n a s
  exact hrun

theorem stringLoop_keeps_wf (h : s.mem.wf) : (stringLoop kind n a s).mem.wf := by
  obtain ⟨-, -, -, -, -, -, -, hwf⟩ := stringLoop_frame kind n a s
  exact hwf h

end

/-! ## The fetch and the step -/

@[simp] theorem fetch_snd (s : State) : (fetch s).2 = (s.afterRead s.pc).setPc (s.pc + 1) := rfl

theorem step_of_halted {s : State} (h : s.run = .halted) : step s = .next s := by
  simp only [step, h]

theorem step_of_ready {s : State} (h : s.ready) : step s = exec (decode (fetch s).1) (fetch s).2 := by
  obtain ⟨hrun, hprinting⟩ := h
  simp only [step, hrun, hprinting]

/-! ## What a completed instruction did -/

/-- `Effect s i t`: `t` is one of the states that an instruction of `i`'s class may leave after `s`. -/
inductive Effect (s : State) (i : Instr) : State → Prop where
  /-- Reads, then a result with its flag (10_state.md R26). -/
  | result (dr : Reg) (as : List Word) (v : Word) (hi : i.resultReg = some dr) : Effect s i ((s.afterReads as).setResult dr v)
  /-- A new PC, and a link in a register the instruction names as written (10_state.md R23). -/
  | transfer (x : Regs) (target : Word) (hi : i.transfersControl = true) (hx : ∀ r, r ∉ i.writtenRegs → x.get r = s.reg r) :
      Effect s i { s with regs := x, pc := target }
  /-- Reads, then one write (20_memory.md R48). -/
  | store (as : List Word) (a v : Word) (hi : i.memoryUse = .stores) : Effect s i ((s.afterReads as).memWrite a v)
  /-- A prompt, then a character in R0 (45_trap.md R142, R145). -/
  | character (prompt : List Byte) (c : Byte) (h : HostInput) (hi : i.readsChar = true) :
      Effect s i { s.writeText prompt with regs := s.regs.set .r0 (zextByte c), host := h }
  /-- A byte on the console (R143). -/
  | byte (b : Byte) (hi : i = .trapOut) : Effect s i (s.writeByte b)
  /-- A string, or the first part of one (R144, R146; log 14). -/
  | string (kind : StringKind) (n : Nat) (a : Word) (hi : i = .trapPuts ∨ i = .trapPutsp) : Effect s i (stringLoop kind n a s)
  /-- The end of the run (R147). -/
  | halt (notice : List Byte) (hi : i = .trapHalt) : Effect s i (s.writeText notice).halt
  /-- A report (46_invalid.md R160-R162). -/
  | report (word : Word) (hi : i.isInvalid = true) : Effect s i (s.raiseMalformed word)

/-- GETC's and IN's read, once it completes, after the prompt `prompt`. -/
theorem readCharToR0_effect {i : Instr} {s t : State} (prompt : List Byte) (hi : i.readsChar = true)
    (h : readCharToR0 (s.writeText prompt) = .next t) : Effect s i t := by
  obtain ⟨-, e⟩ | ⟨c, input, -, e⟩ := readCharToR0_cases (s.writeText prompt)
  · rw [e] at h; cases h
  · rw [e] at h; cases h
    exact .character prompt c input hi

/-- A completed instruction had an effect of its class. -/
theorem exec_effect {i : Instr} {s t : State} (h : exec i s = .next t) : Effect s i t := by
  cases i with
  | addReg | addImm | andReg | andImm | not | lea => cases h; exact .result _ [] _ rfl
  | ld | ldr => cases h; exact .result _ [_] _ rfl
  | ldi => cases h; exact .result _ [_, _] _ rfl
  | br nzp off =>
    cases h
    cases branchTaken nzp s
    · exact .transfer s.regs s.pc rfl fun _ _ => rfl
    · exact .transfer s.regs _ rfl fun _ _ => rfl
  | jmp => cases h; exact .transfer s.regs _ rfl fun _ _ => rfl
  | jsr | jsrr => cases h; exact .transfer _ _ rfl fun r hr => Regs.get_set_other _ _ (List.ne_of_not_mem_cons hr)
  | st | str => cases h; exact .store [] _ _ rfl
  | sti => cases h; exact .store [_] _ _ rfl
  | trapGetc =>
    have hprompt : s.writeText [] = s := by simp [State.writeText]
    exact readCharToR0_effect [] rfl (hprompt.symm ▸ h)
  | trapIn => exact readCharToR0_effect Config.inPrompt rfl h
  | trapOut => cases h; exact .byte _ rfl
  | trapPuts => cases h; exact .string .puts _ _ (.inl rfl)
  | trapPutsp => cases h; exact .string .putsp _ _ (.inr rfl)
  | trapHalt => cases h; exact .halt _ rfl
  | trapUnknown | rti | reserved13 => cases h; exact .report _ rfl

/-! ## The classes of instructions -/

/-- An instruction with a result writes its destination alone and is in none of the other classes of `Effect`. -/
theorem Instr.classes_of_resultReg {i : Instr} {dr : Reg} (h : i.resultReg = some dr) :
    i.writtenRegs = [dr] ∧ i.transfersControl = false ∧ i.memoryUse ≠ .stores ∧ i.readsChar = false ∧ i.isInvalid = false := by
  cases i <;> cases h <;> exact ⟨rfl, rfl, nofun, rfl, rfl⟩

theorem Instr.writtenRegs_of_readsChar {i : Instr} (h : i.readsChar = true) : i.writtenRegs = [.r0] := by
  cases i <;> cases h <;> rfl

/-! ## One rule for each field -/

section
variable {i : Instr} {s t : State} (h : exec i s = .next t)
include h

theorem exec_run : t.run = if i = .trapHalt then .halted else s.run := by
  cases exec_effect h with
  | halt _ hi => simp [hi]
  | result _ _ _ hi | transfer _ _ hi | store _ _ _ hi | character _ _ _ hi | report _ hi =>
    have hne : i ≠ .trapHalt := by rintro rfl; cases hi
    simp [hne]
  | byte _ hi => simp [hi]
  | string _ _ _ hi => obtain rfl | rfl := hi <;> simp

theorem exec_pc (hi : i.transfersControl = false) : t.pc = s.pc := by
  cases exec_effect h with
  | transfer _ _ htransfer => simp [hi] at htransfer
  | result | store | character | byte | string | halt | report => simp

theorem exec_cond_of_result {dr : Reg} (hi : i.resultReg = some dr) : t.cond = flagOf (t.reg dr) := by
  obtain ⟨-, htransfer, hstore, hchar, hinvalid⟩ := Instr.classes_of_resultReg hi
  cases exec_effect h with
  | result dr' _ v hi' =>
    obtain rfl : dr = dr' := Option.some.inj (hi.symm.trans hi')
    simp
  | transfer _ _ hi' => simp [htransfer] at hi'
  | store _ _ _ hi' => exact absurd hi' hstore
  | character _ _ _ hi' => simp [hchar] at hi'
  | report _ hi' => simp [hinvalid] at hi'
  | byte _ hi' | halt _ hi' => subst hi'; cases hi
  | string _ _ _ hi' => obtain rfl | rfl := hi' <;> cases hi

theorem exec_cond_of_no_result (hi : i.resultReg = none) : t.cond = s.cond := by
  cases exec_effect h with
  | result _ _ _ hi' => simp [hi] at hi'
  | transfer | store | character | byte | string | halt | report => simp

theorem exec_reg_other {r : Reg} (hr : r ∉ i.writtenRegs) : t.reg r = s.reg r := by
  cases exec_effect h with
  | result dr _ _ hi =>
    obtain ⟨hwritten, -⟩ := Instr.classes_of_resultReg hi
    have hne : r ≠ dr := by simpa [hwritten] using hr
    simp [State.reg_eq, hne]
  | transfer _ _ _ hx => exact hx r hr
  | character _ _ _ hi =>
    have hne : r ≠ .r0 := by simpa [Instr.writtenRegs_of_readsChar hi] using hr
    simp [State.reg_eq, hne]
  | store | byte | string | halt | report => simp [State.reg_eq]

theorem exec_keeps_mem_wf (hwf : s.mem.wf) : t.mem.wf := by
  cases exec_effect h with
  | result _ as => exact State.afterReads_keeps_wf as hwf
  | store as a v => exact State.setCell_keeps_wf a v (State.afterReads_keeps_wf as hwf)
  | string kind n a => exact stringLoop_keeps_wf kind n a s hwf
  | transfer | character | byte | halt | report => exact hwf

theorem exec_keeps_condLegal (hcond : s.condLegal) : t.condLegal := by
  cases hi : i.resultReg with
  | none => simpa only [State.condLegal, exec_cond_of_no_result h hi] using hcond
  | some dr => simpa only [State.condLegal, exec_cond_of_result h hi] using flagOf_legal (t.reg dr)

theorem exec_keeps_inv (hready : s.ready) (hinv : s.Inv) : t.Inv := by
  obtain ⟨hwf, hcond, -⟩ := hinv
  obtain ⟨hrun, hprinting⟩ := hready
  refine ⟨exec_keeps_mem_wf h hwf, exec_keeps_condLegal h hcond, fun hhalted => ?_⟩
  have hi : i = .trapHalt := by
    by_contra hne
    simp [exec_run h, hne, hrun] at hhalted
  subst hi; cases h
  exact hprinting

end

/-! ## The invariant -/

/-- The increment of PC and the fetch's poll keep what exec starts from. -/
theorem fetch_keeps_ready {s : State} (h : s.ready) : (fetch s).2.ready := by
  simpa [State.ready] using h

theorem fetch_keeps_inv {s : State} (h : s.Inv) : (fetch s).2.Inv := by
  obtain ⟨hwf, hcond, hhalted⟩ := h
  exact ⟨State.afterRead_keeps_wf s.pc hwf, by simpa [State.condLegal] using hcond, by simpa using hhalted⟩

/-- Settles O11, by the three kinds of step: a further part of a routine leaves the core RUNNING and COND alone, and HALT
runs only where no routine is under way. -/
theorem stepKeepsInvariant : Obligations.StepKeepsInvariant := by
  intro s t hinv hstep
  obtain ⟨-, e⟩ | ⟨p, hrun, -, e⟩ | ⟨hrun, hprinting, e⟩ := step_cases s <;> rw [e] at hstep
  · cases hstep
    exact hinv
  · cases hstep
    obtain ⟨hwf, hcond, -⟩ := hinv
    exact ⟨stringLoop_keeps_wf _ _ _ _ hwf, by simpa [State.condLegal] using hcond, by simp [hrun]⟩
  · exact exec_keeps_inv hstep (fetch_keeps_ready ⟨hrun, hprinting⟩) (fetch_keeps_inv hinv)

theorem resetWith_inv {cond : Word} (h : (State.resetWith cond).condLegal) : (State.resetWith cond).Inv :=
  ⟨Memory.wf_nil, h, fun _ => rfl⟩

/-- Settles O10: the reset memory is empty, and each reset value of COND is a flag. -/
theorem resetMeetsInvariant : Obligations.ResetMeetsInvariant :=
  ⟨resetWith_inv (.inr (.inl rfl)), resetWith_inv (.inl rfl), resetWith_inv (.inr (.inl rfl)), resetWith_inv (.inr (.inr rfl))⟩

/-- Settles O9: every field is read off `State.resetWith`, and an empty memory reads as zero. -/
theorem resetValues : Obligations.ResetValues := by
  refine ⟨fun r => ?_, rfl, rfl, fun a => Memory.read_nil a.toNat, rfl⟩
  cases r <;> rfl

/-! ## The run state, PC, COND and the registers -/

/-- A step from RUNNING ends in HALTED exactly when it starts an instruction, and that is HALT. -/
theorem step_halts_iff {s t : State} (hrunning : s.run = .running) (hstep : step s = .next t) :
    t.run = .halted ↔ s.printing = none ∧ decode (fetch s).1 = .trapHalt := by
  obtain ⟨hrun, -⟩ | ⟨p, -, hprinting, e⟩ | ⟨-, hprinting, e⟩ := step_cases s
  · simp [hrunning] at hrun
  · rw [e] at hstep; cases hstep
    simp [hrunning, hprinting]
  · rw [e] at hstep
    simp [exec_run hstep, hrunning, hprinting]

/-- Settles O27: `exec_run` and `step_halts_iff`; a step in HALTED answers the same state. -/
theorem onlyHaltChangesRunState : Obligations.OnlyHaltChangesRunState := by
  refine ⟨rfl, fun i s t h => exec_run h, fun s t hhalted hstep => ?_, fun s t => step_halts_iff⟩
  rw [step_of_halted hhalted] at hstep; cases hstep
  exact hhalted

/-- Settles O29: the fetch increments PC, and an instruction that transfers nothing keeps it. -/
theorem onlyTransfersWritePc : Obligations.OnlyTransfersWritePc := by
  refine ⟨fun i s t h hi => exec_pc h hi, fun s t hready hstep hi => ?_⟩
  rw [step_of_ready hready] at hstep
  exact exec_pc hstep hi

/-- Settles O30, by whether the instruction has a result. -/
theorem onlyResultInstructionsWriteCond : Obligations.OnlyResultInstructionsWriteCond := by
  intro i s t h
  cases hi : i.resultReg with
  | none => exact exec_cond_of_no_result h hi
  | some dr => exact exec_cond_of_result h hi

/-- Settles O32, by the registers each class of `Effect` writes. -/
theorem otherRegistersKeepTheirValue : Obligations.OtherRegistersKeepTheirValue :=
  fun _ _ _ _ h hr => exec_reg_other h hr

/-! ## Independence from COND -/

/-- The state with another value in COND. -/
def State.withCond (s : State) (c : Word) : State := { s with cond := c }

theorem State.keyboardPoll_withCond (s : State) (c : Word) : (s.withCond c).keyboardPoll = s.keyboardPoll.withCond c := by
  have hhost : (s.withCond c).host = s.host := rfl
  unfold State.keyboardPoll
  rw [hhost]
  split <;> rfl

theorem State.afterRead_withCond (s : State) (a c : Word) : (s.withCond c).afterRead a = (s.afterRead a).withCond c := by
  by_cases ha : a = Config.kbsrAddr
  · rw [ha, State.afterRead_kbsr, State.afterRead_kbsr, State.keyboardPoll_withCond]
  · rw [State.afterRead_other _ ha, State.afterRead_other _ ha]

theorem State.memRead_withCond (s : State) (a c : Word) :
    (s.withCond c).memRead a = ((s.memRead a).1, (s.memRead a).2.withCond c) := by
  unfold State.memRead
  rw [State.afterRead_withCond]
  rfl

/-- A load reads nothing of COND and then overwrites it. -/
theorem loadFrom_withCond (dr : Reg) (ea : Word) (s : State) (c : Word) :
    loadFrom dr ea (s.withCond c) = loadFrom dr ea s := by
  unfold loadFrom
  rw [State.memRead_withCond]
  rfl

theorem pointerAt_withCond (off : Word) (s : State) (c : Word) :
    pointerAt off (s.withCond c) = ((pointerAt off s).1, (pointerAt off s).2.withCond c) :=
  State.memRead_withCond s (pcRelative off s) c

theorem readCharToR0_withCond {s t : State} (c : Word) (h : readCharToR0 s = .next t) :
    readCharToR0 (s.withCond c) = .next (t.withCond c) := by
  obtain ⟨-, e⟩ | ⟨b, input, hread, e⟩ := readCharToR0_cases s <;> rw [e] at h <;> cases h
  obtain ⟨hread', -⟩ | ⟨b', input', hread', e'⟩ := readCharToR0_cases (s.withCond c)
  · cases hread.symm.trans hread'
  · cases hread.symm.trans hread'
    exact e'

theorem stringLoop_withCond (kind : StringKind) (n : Nat) (a : Word) (s : State) (c : Word) :
    stringLoop kind n a (s.withCond c) = (stringLoop kind n a s).withCond c := by
  induction n generalizing a s with
  | zero => rfl
  | succ n ih =>
    have hcell : ((s.afterRead a).withCond c).cell a = (s.afterRead a).cell a := rfl
    rw [stringLoop_succ, stringLoop_succ, State.afterRead_withCond, hcell]
    split
    · rfl
    · exact ih (a + 1) ((s.afterRead a).writeText (kind.bytes ((s.afterRead a).cell a)))

/-- An instruction with a result answers the same state whatever COND was. -/
theorem exec_withCond_of_result {i : Instr} {dr : Reg} (hi : i.resultReg = some dr) (s : State) (c : Word) :
    exec i (s.withCond c) = exec i s := by
  cases i with
  | addReg | addImm | andReg | andImm | not | lea => rfl
  | ld | ldr => exact loadFrom_withCond _ _ s c
  | ldi dr off =>
    show loadFrom dr _ _ = loadFrom dr _ _
    rw [pointerAt_withCond, loadFrom_withCond]
  | _ => cases hi

/-- An instruction without a result, other than BR, carries COND along. -/
theorem exec_withCond_of_no_result {i : Instr} {s t : State} (c : Word) (hbr : ∀ nzp off, i ≠ .br nzp off)
    (hi : i.resultReg = none) (h : exec i s = .next t) : exec i (s.withCond c) = .next (t.withCond c) := by
  cases i with
  | br nzp off => exact absurd rfl (hbr nzp off)
  | jmp | jsr | jsrr | st | str | trapOut | trapHalt | trapUnknown | rti | reserved13 => cases h; rfl
  | sti sr off =>
    cases h
    show storeTo sr _ _ = _
    rw [pointerAt_withCond]
    rfl
  | trapGetc | trapIn => exact readCharToR0_withCond c h
  | trapPuts | trapPutsp => cases h; exact congrArg Host.Outcome.next (stringLoop_withCond _ _ _ s c)
  | _ => cases hi

/-- Settles O31: a result instruction overwrites COND unread, and every other one but BR carries it along. -/
theorem onlyBrReadsCond : Obligations.OnlyBrReadsCond := by
  intro i s t c hbr h
  cases hi : i.resultReg with
  | some dr => exact (exec_withCond_of_result hi s c).trans h
  | none => exact exec_withCond_of_no_result c hbr hi h

end Sys2Proof.Machine

/-! The rules of 20_memory.md: memory's canonical form, what a poll, a read and a write change (R43, R45, R47, R49), which
instructions change memory (R48), and that a fetch polls (R48) and sees every earlier store (R56). -/

namespace Sys2Proof.Machine

/-! ## The canonical form -/

/-- A canonical memory lists exactly the cells that do not read as 0x0000, with their values. -/
theorem Memory.mem_iff_read {m : Memory} (h : m.wf) (a : Nat) (v : Word) : (a, v) ∈ m ↔ v ≠ 0#16 ∧ m.read a = v := by
  obtain ⟨hrising, hlisted⟩ := h
  induction m with
  | nil => exact ⟨nofun, fun ⟨hv, hzero⟩ => absurd hzero.symm hv⟩
  | cons c m ih =>
    obtain ⟨b, w⟩ := c
    obtain ⟨hhead, hrest⟩ := List.pairwise_cons.1 hrising
    have ih := ih hrest fun d hd => hlisted d (List.mem_cons_of_mem _ hd)
    by_cases hb : b = a
    · subst hb
      have hw : w ≠ 0#16 := (hlisted (b, w) List.mem_cons_self).2
      have hnot : (b, v) ∉ m := fun hv => lt_irrefl b (hhead _ hv)
      have hv : v = w ↔ v ≠ 0#16 ∧ w = v := ⟨by rintro rfl; exact ⟨hw, rfl⟩, fun ⟨_, e⟩ => e.symm⟩
      simpa [Memory.read_cons, hnot] using hv
    · simp [Memory.read_cons, hb, Ne.symm hb, ih]

/-- Canonical memories that read alike list the same cells in the same order. -/
theorem Memory.eq_of_read_eq {m m' : Memory} (h : m.wf) (h' : m'.wf) (hread : ∀ a, m.read a = m'.read a) : m = m' := by
  have hirrefl : Std.Irrefl fun c d : MemCell => c.1 < d.1 := ⟨fun c => lt_irrefl c.1⟩
  have hasymm : Std.Asymm fun c d : MemCell => c.1 < d.1 := ⟨fun _ _ => lt_asymm⟩
  refine h.1.eq_of_mem_iff h'.1 fun c => ?_
  rw [Memory.mem_iff_read h c.1 c.2, Memory.mem_iff_read h' c.1 c.2, hread]

/-- Settles O20: a canonical memory lists the cells that do not read as 0x0000, in the order of their addresses. -/
theorem canonicalMemoriesThatReadAlikeAreEqual : Obligations.CanonicalMemoriesThatReadAlikeAreEqual :=
  ⟨fun _ _ v h ha => Memory.write_keeps_wf v h ha, fun _ _ => Memory.eq_of_read_eq⟩

/-! ## A poll, a read and a write -/

theorem HostInput.readChar_of_keys {h : HostInput} {k : Keystroke} {ks : List Keystroke} (hkeys : h.keys = k :: ks) :
    h.readChar = some (k.code, { h with keys := ks }) := by
  simp [HostInput.readChar, hkeys]

theorem HostInput.readChar_of_free {h : HostInput} (hkeys : h.keys = []) (hends : h.ends = false) :
    h.readChar = some (Config.hostChar h.drawn, { h with drawn := h.drawn + 1 }) := by
  simp [HostInput.readChar, hkeys, hends]

/-- A true answer comes with the character that a read would take, and takes it (92_eei_decisions.md D11). -/
theorem HostInput.readChar_of_poll {h h' : HostInput} {c : Byte} (hpoll : h.poll = (some c, h')) :
    h.readChar = some (c, h') := by
  obtain ⟨_, _, hkeys, e⟩ | ⟨_, _, _, -, e⟩ | ⟨-, -, e⟩ | ⟨hkeys, hends, -, e⟩ | ⟨-, -, -, e⟩ := h.poll_cases <;>
    cases e.symm.trans hpoll
  · exact HostInput.readChar_of_keys hkeys
  · exact HostInput.readChar_of_free hkeys hends

/-- A false answer leaves every listed character, at most with a shorter delay. -/
theorem HostInput.codes_of_poll_none {h h' : HostInput} (hpoll : h.poll = (none, h')) :
    h'.keys.map Keystroke.code = h.keys.map Keystroke.code := by
  obtain ⟨_, _, -, e⟩ | ⟨_, _, _, hkeys, e⟩ | ⟨-, -, e⟩ | ⟨-, -, -, e⟩ | ⟨-, -, -, e⟩ := h.poll_cases <;>
    cases e.symm.trans hpoll
  · simp [hkeys]
  · rfl
  · rfl

/-- Where a read would wait forever, a poll answers false and uses up nothing. -/
theorem HostInput.poll_of_readChar_none {h : HostInput} (hread : h.readChar = none) : h.poll = (none, h) := by
  obtain ⟨hkeys, hends⟩ := HostInput.readChar_eq_none.1 hread
  simp [HostInput.poll, hkeys, hends]

/-- Settles O18, one clause for each of the three lemmas above; a poll never ends the input. -/
theorem pollTakesOnlyAnAvailableCharacter : Obligations.PollTakesOnlyAnAvailableCharacter := by
  refine ⟨fun _ _ _ => HostInput.readChar_of_poll, fun h h' hpoll => ⟨HostInput.codes_of_poll_none hpoll, ?_⟩,
    fun _ => HostInput.poll_of_readChar_none⟩
  simpa [hpoll] using h.poll_ends

/-- After a poll the status cell tells the host's answer (20_memory.md R45; D10). -/
theorem State.cell_keyboardPoll_kbsr (s : State) :
    s.keyboardPoll.cell Config.kbsrAddr = if s.host.poll.1.isSome then 0x8000#16 else 0x0000#16 := by
  have hne : Config.kbsrAddr ≠ Config.kbdrAddr := by decide
  obtain ⟨c, h, hpoll, e⟩ | ⟨h, hpoll, e⟩ := s.keyboardPoll_cases <;> simp [e, hpoll, State.cell_setCell, hne]

/-- After a poll the data cell holds the character taken, or what it held (R45). -/
theorem State.cell_keyboardPoll_kbdr (s : State) :
    s.keyboardPoll.cell Config.kbdrAddr = (s.host.poll.1.map zextByte).getD (s.cell Config.kbdrAddr) := by
  have hne : Config.kbdrAddr ≠ Config.kbsrAddr := by decide
  obtain ⟨c, h, hpoll, e⟩ | ⟨h, hpoll, e⟩ := s.keyboardPoll_cases
  · simp [e, hpoll, State.cell_setCell]
  · rw [e, hpoll, State.cell_setCell, if_neg hne]
    rfl

/-- A poll writes no field but memory and the host's input. -/
theorem State.keyboardPoll_eq (s : State) :
    s.keyboardPoll = { s with mem := s.keyboardPoll.mem, host := s.host.poll.2 } := by
  apply State.eq_of_fields <;> simp

/-- Settles O17: the status cell, the data cell, every other cell and the rest of the state, one lemma each. -/
theorem keyboardPollSetsItsTwoCells : Obligations.KeyboardPollSetsItsTwoCells := by
  intro s answer h hpoll
  have hstatus := s.cell_keyboardPoll_kbsr
  have hdata := s.cell_keyboardPoll_kbdr
  have hrest := s.keyboardPoll_eq
  rw [hpoll] at hstatus hdata hrest
  refine ⟨hstatus, ?_, ?_, fun a => s.cell_keyboardPoll_other, hrest⟩
  · rintro c rfl
    exact hdata
  · rintro rfl
    exact hdata

/-- A read away from the status cell answers the cell and leaves the state as it was (R43). -/
theorem State.memRead_other (s : State) {a : Word} (h : a ≠ Config.kbsrAddr) : s.memRead a = (s.cell a, s) := by
  rw [State.memRead, s.afterRead_other h]

/-- Settles O16, by R43's two cases. -/
theorem readPollsOnlyAtStatusCell : Obligations.ReadPollsOnlyAtStatusCell := by
  refine fun s a => ⟨?_, s.memRead_other⟩
  rintro rfl
  rw [State.memRead, s.afterRead_kbsr]

/-- Settles O19: a write is a direct cell write at every address. -/
theorem writeSetsExactlyOneCell : Obligations.WriteSetsExactlyOneCell :=
  fun s a v b => ⟨s.cell_setCell a v b, rfl⟩

/-! ## Which instructions change memory -/

theorem State.cell_afterReads_other (s : State) (as : List Word) {b : Word} (h1 : b ≠ Config.kbsrAddr)
    (h2 : b ≠ Config.kbdrAddr) : (s.afterReads as).cell b = s.cell b := by
  induction as generalizing s with
  | nil => rfl
  | cons a as ih => exact (ih (s.afterRead a)).trans (s.cell_afterRead_other a h1 h2)

theorem readCharToR0_mem {s t : State} (h : readCharToR0 s = .next t) : t.mem = s.mem := by
  obtain ⟨-, e⟩ | ⟨_, _, -, e⟩ := readCharToR0_cases s <;> rw [e] at h <;> cases h
  rfl

/-- An instruction without an access leaves memory as it was (20_memory.md R48). -/
theorem exec_mem_of_no_access {i : Instr} {s t : State} (h : exec i s = .next t) (hi : i.memoryUse = .none) :
    t.mem = s.mem := by
  cases i with
  | addReg | addImm | andReg | andImm | not | lea | jmp | jsr | jsrr | trapOut | trapHalt | trapUnknown | rti
  | reserved13 => cases h; rfl
  | br nzp off => cases h; cases branchTaken nzp s <;> rfl
  | trapGetc => exact readCharToR0_mem h
  | trapIn => exact readCharToR0_mem (s := s.writeText Config.inPrompt) h
  | ld | ldi | ldr | st | sti | str | trapPuts | trapPutsp => cases hi

/-- An instruction that only reads changes no cell but the two of the keyboard (R45, R48). -/
theorem exec_cell_of_reads {i : Instr} {s t : State} (h : exec i s = .next t) (hi : i.memoryUse = .reads) {a : Word}
    (h1 : a ≠ Config.kbsrAddr) (h2 : a ≠ Config.kbdrAddr) : t.cell a = s.cell a := by
  cases exec_effect h with
  | result _ as => exact s.cell_afterReads_other as h1 h2
  | store _ _ _ hstores => simp [hi] at hstores
  | string kind n b =>
    obtain ⟨-, -, -, -, -, -, hcell, -⟩ := stringLoop_frame kind n b s
    exact hcell a h1 h2
  | transfer | character | byte | halt | report => rfl

theorem State.cell_of_mem_eq {s t : State} (h : t.mem = s.mem) (a : Word) : t.cell a = s.cell a := by
  rw [State.cell, h, State.cell]

/-- Settles O33, by the two classes of R48 that store nothing. -/
theorem onlyStoresAndPollsChangeMemory : Obligations.OnlyStoresAndPollsChangeMemory :=
  fun _ _ _ h => ⟨fun hi => State.cell_of_mem_eq (exec_mem_of_no_access h hi), fun hi _ => exec_cell_of_reads h hi⟩

/-! ## Loads away from the status cell -/

/-- A load from another address writes its destination and COND alone. -/
theorem loadFrom_other (dr : Reg) (s : State) {ea : Word} (hea : ea ≠ Config.kbsrAddr) :
    loadFrom dr ea s = .next (s.setResult dr (s.cell ea)) := by
  rw [loadFrom, s.memRead_other hea]

@[simp] theorem pointerAt_snd (off : Word) (s : State) : (pointerAt off s).2 = s.afterRead (pcRelative off s) := rfl

/-- A pointer at another address is read without a poll. -/
theorem pointerAt_other {off : Word} {s : State} (h : pcRelative off s ≠ Config.kbsrAddr) :
    pointerAt off s = (s.cell (pcRelative off s), s) :=
  s.memRead_other h

/-- A load from another address changes no cell and takes no input (20_memory.md R49). -/
theorem loadFrom_other_frame {dr : Reg} {ea : Word} {s t : State} (hea : ea ≠ Config.kbsrAddr)
    (h : loadFrom dr ea s = .next t) : (∀ a, t.cell a = s.cell a) ∧ t.host = s.host := by
  rw [loadFrom_other dr s hea] at h; cases h
  exact ⟨fun _ => rfl, rfl⟩

/-- Settles O34: each load ends in one read, and LDI's pointer, away from the status cell, is read without a poll. -/
theorem loadsAwayFromStatusCellChangeNoCell : Obligations.LoadsAwayFromStatusCellChangeNoCell := by
  refine fun s t dr baseR off => ⟨fun h hea => loadFrom_other_frame hea h, fun h hptr hea => ?_,
    fun h hea => loadFrom_other_frame hea h⟩
  have hldi : exec (.ldi dr off) s = loadFrom dr (pointerAt off s).1 (pointerAt off s).2 := rfl
  rw [hldi, pointerAt_other hptr] at h
  exact loadFrom_other_frame hea h

/-! ## A fetch at the status cell -/

/-- A step at the status cell polls and runs what the poll wrote: 0x8000, an Invalid, or 0x0000, a branch never taken
(20_memory.md R48; D12). -/
theorem step_at_kbsr {s : State} (hready : s.ready) (hpc : s.pc = Config.kbsrAddr) :
    step s = .next (if s.host.poll.1.isSome then (s.keyboardPoll.setPc (s.pc + 1)).raiseMalformed 0x8000#16
      else s.keyboardPoll.setPc (s.pc + 1)) := by
  have hword : (fetch s).1 = if s.host.poll.1.isSome then 0x8000#16 else 0x0000#16 := by
    rw [fetch, hpc, State.memRead_fst, s.afterRead_kbsr, s.cell_keyboardPoll_kbsr]
  have hnext : (fetch s).2 = s.keyboardPoll.setPc (s.pc + 1) := by rw [fetch_snd, hpc, s.afterRead_kbsr]
  rw [step_of_ready hready, hword, hnext]
  cases s.host.poll.1.isSome with
  | true => rfl
  | false =>
    have hbr : decode 0x0000#16 = .br 0#3 0#16 := by decide
    simp [hbr, exec, execBr, branchTaken]

/-- Settles O23: the two answers of `step_at_kbsr`, field by field. -/
theorem fetchAtStatusCellRunsPolledWord : Obligations.FetchAtStatusCellRunsPolledWord := by
  intro s answer h hready hpc hpoll
  refine ⟨_, step_at_kbsr hready hpc, ?_⟩
  cases answer <;> simp [hpoll, hpc]

/-! ## A store ahead of the fetch -/

/-- The word of an instruction with a register and a 9-bit offset, read back. -/
theorem fields_of_off9_format (op : BitVec 4) (r : Reg) {off : Word} (hoff : fitsOff9 off = true) :
    regField11 (op ++ r.toBits ++ off.setWidth 9) = r ∧ sext 9 (op ++ r.toBits ++ off.setWidth 9) = off := by
  refine ⟨?_, ?_⟩
  · rw [regField11, extract_append_high _ _ 0 3, extract_append_low, Reg.ofBits_toBits]
  · rw [sext_congr BitVec.setWidth_append_eq_right, sext9_of_fits hoff]

/-- ST's word decodes to it. -/
theorem decode_encode_st {sr : Reg} {off : Word} (hwf : (Instr.st sr off).wellFormed = true) :
    decode (encode (.st sr off)) = .st sr off := by
  obtain ⟨hreg, hoff⟩ := fields_of_off9_format 0b0011#4 sr hwf
  simp only [decode, Laws.EncodesOpcode.st sr off hwf, Laws.EncodesOpcode.opcodeOf]
  exact congrArg₂ Instr.st hreg hoff

theorem decode_encode_sti {sr : Reg} {off : Word} (hwf : (Instr.sti sr off).wellFormed = true) :
    decode (encode (.sti sr off)) = .sti sr off := by
  obtain ⟨hreg, hoff⟩ := fields_of_off9_format 0b1011#4 sr hwf
  simp only [decode, Laws.EncodesOpcode.sti sr off hwf, Laws.EncodesOpcode.opcodeOf]
  exact congrArg₂ Instr.sti hreg hoff

theorem decode_encode_str {sr baseR : Reg} {off : Word} (hwf : (Instr.str sr baseR off).wellFormed = true) :
    decode (encode (.str sr baseR off)) = .str sr baseR off := by
  have hsr : regField11 (encode (.str sr baseR off)) = sr := by
    rw [regField11, encode, extract_append_high _ _ 3 3, extract_append_high _ _ 0 3, extract_append_low, Reg.ofBits_toBits]
  have hbase : regField8 (encode (.str sr baseR off)) = baseR := by
    rw [regField8, encode, extract_append_high _ _ 0 3, extract_append_low, Reg.ofBits_toBits]
  have hoff : sext 6 (encode (.str sr baseR off)) = off := by
    rw [encode, sext_congr BitVec.setWidth_append_eq_right, sext6_of_fits hwf]
  simp only [decode, Laws.EncodesOpcode.str sr baseR off hwf, Laws.EncodesOpcode.opcodeOf, hsr, hbase, hoff]

/-- A step away from the status cell runs the word in the cell at PC, on the state with PC incremented. -/
theorem step_of_ready_other {s : State} (hready : s.ready) (hpc : s.pc ≠ Config.kbsrAddr) :
    step s = exec (decode (s.cell s.pc)) (s.setPc (s.pc + 1)) := by
  rw [step_of_ready hready, fetch, s.memRead_other hpc]

/-- After a store to the cell at PC the next step runs the word stored. -/
theorem step_memWrite_pc {s : State} (hready : s.ready) (hpc : s.pc ≠ Config.kbsrAddr) (v : Word) :
    step (s.memWrite s.pc v) = exec (decode v) ((s.memWrite s.pc v).setPc (s.pc + 1)) := by
  have hcell : (s.memWrite s.pc v).cell s.pc = v := by
    rw [State.memWrite, s.cell_setCell, if_pos rfl]
  have hstep := step_of_ready_other (s := s.memWrite s.pc v) hready hpc
  rwa [State.memWrite_pc, hcell] at hstep

/-- A store to the address of the next instruction is what the next step runs (20_memory.md R56). -/
theorem storeTo_pc_seen_by_next_step {s : State} {ea : Word} (hready : s.ready) (hpc : s.pc ≠ Config.kbsrAddr) (sr : Reg)
    (hea : ea = s.pc) :
    ∃ t, storeTo sr ea s = .next t ∧ step t = exec (decode (s.reg sr)) { t with pc := s.pc + 1 } := by
  subst hea
  exact ⟨_, rfl, step_memWrite_pc hready hpc (s.reg sr)⟩

/-- Settles O25: each of the three ends in a store, and STI's pointer read keeps PC, the registers and the run state. -/
theorem storeIsSeenByNextFetch : Obligations.StoreIsSeenByNextFetch := by
  intro s i sr baseR off u hready hpc hnext hwf hword hi
  have hstep : step s = exec (decode (encode i)) u := by rw [step_of_ready_other hready hpc, hword]; rfl
  have htwo : s.pc + 2 = u.pc + 1 := (BitVec.add_assoc s.pc 1 1).symm
  have huready : u.ready := hready
  have hupc : u.pc ≠ Config.kbsrAddr := hnext
  rw [hstep, htwo]
  obtain ⟨rfl, hea⟩ | ⟨rfl, hea⟩ | ⟨rfl, hea⟩ := hi
  · rw [decode_encode_st hwf]
    exact storeTo_pc_seen_by_next_step huready hupc sr hea
  · rw [decode_encode_str hwf]
    exact storeTo_pc_seen_by_next_step huready hupc sr hea
  · rw [decode_encode_sti hwf]
    have hseen := storeTo_pc_seen_by_next_step (s := (pointerAt off u).2) (ea := (pointerAt off u).1)
      (by simpa [State.ready] using huready) (by simpa using hupc) sr (by simpa using hea)
    rwa [pointerAt_snd, State.afterRead_pc, State.afterRead_reg] at hseen

end Sys2Proof.Machine

/-! The rules of 30_encoding.md: the decoder row by row (R72), the ranges and the words of an Invalid (R63, R60), the round trip
(R73) and the bits the decoder ignores (R67). `HasFormat w i` says that the row of `w` in R72's table gives `i`.
`hasFormat_decode` and `decode_eq_of_hasFormat` tie it to the decoder, and the rules are read off the rows. -/

namespace Sys2Proof

/-! ## The decoder's table -/

/-- The row of R72's table that `w` stands in, with the operands of its fields, gives `i`. -/
inductive HasFormat (w : Word) : Instr → Prop
  | br (hop : (opcodeField w).toNat = 0) : HasFormat w (.br (nzpField w) (sext 9 w))
  | addReg (hop : (opcodeField w).toNat = 1) (hbit : bit5 w = false) :
      HasFormat w (.addReg (regField11 w) (regField8 w) (regField2 w))
  | addImm (hop : (opcodeField w).toNat = 1) (hbit : bit5 w = true) :
      HasFormat w (.addImm (regField11 w) (regField8 w) (sext 5 w))
  | ld (hop : (opcodeField w).toNat = 2) : HasFormat w (.ld (regField11 w) (sext 9 w))
  | st (hop : (opcodeField w).toNat = 3) : HasFormat w (.st (regField11 w) (sext 9 w))
  | jsr (hop : (opcodeField w).toNat = 4) (hbit : bit11 w = true) : HasFormat w (.jsr (sext 11 w))
  | jsrr (hop : (opcodeField w).toNat = 4) (hbit : bit11 w = false) : HasFormat w (.jsrr (regField8 w))
  | andReg (hop : (opcodeField w).toNat = 5) (hbit : bit5 w = false) :
      HasFormat w (.andReg (regField11 w) (regField8 w) (regField2 w))
  | andImm (hop : (opcodeField w).toNat = 5) (hbit : bit5 w = true) :
      HasFormat w (.andImm (regField11 w) (regField8 w) (sext 5 w))
  | ldr (hop : (opcodeField w).toNat = 6) : HasFormat w (.ldr (regField11 w) (regField8 w) (sext 6 w))
  | str (hop : (opcodeField w).toNat = 7) : HasFormat w (.str (regField11 w) (regField8 w) (sext 6 w))
  | rti (hop : (opcodeField w).toNat = 8) : HasFormat w (.rti w)
  | not (hop : (opcodeField w).toNat = 9) : HasFormat w (.not (regField11 w) (regField8 w))
  | ldi (hop : (opcodeField w).toNat = 10) : HasFormat w (.ldi (regField11 w) (sext 9 w))
  | sti (hop : (opcodeField w).toNat = 11) : HasFormat w (.sti (regField11 w) (sext 9 w))
  | jmp (hop : (opcodeField w).toNat = 12) : HasFormat w (.jmp (regField8 w))
  | reserved13 (hop : (opcodeField w).toNat = 13) : HasFormat w (.reserved13 w)
  | lea (hop : (opcodeField w).toNat = 14) : HasFormat w (.lea (regField11 w) (sext 9 w))
  | trapGetc (hop : (opcodeField w).toNat = 15) (hvec : (lowByte w).toNat = 0x20) : HasFormat w .trapGetc
  | trapOut (hop : (opcodeField w).toNat = 15) (hvec : (lowByte w).toNat = 0x21) : HasFormat w .trapOut
  | trapPuts (hop : (opcodeField w).toNat = 15) (hvec : (lowByte w).toNat = 0x22) : HasFormat w .trapPuts
  | trapIn (hop : (opcodeField w).toNat = 15) (hvec : (lowByte w).toNat = 0x23) : HasFormat w .trapIn
  | trapPutsp (hop : (opcodeField w).toNat = 15) (hvec : (lowByte w).toNat = 0x24) : HasFormat w .trapPutsp
  | trapHalt (hop : (opcodeField w).toNat = 15) (hvec : (lowByte w).toNat = 0x25) : HasFormat w .trapHalt
  | trapUnknown (hop : (opcodeField w).toNat = 15) (hvec : hasKnownVector w = false) : HasFormat w (.trapUnknown w)

theorem lowByte_toNat (w : Word) : (lowByte w).toNat = w.toNat % 256 := by
  simp [lowByte]

theorem opcodeField_toNat (w : Word) : (opcodeField w).toNat = w.toNat / 4096 := by
  have hw := w.isLt
  simp only [opcodeField, BitVec.extractLsb'_toNat, Nat.shiftRight_eq_div_pow]
  omega

theorem hasKnownVector_iff {w : Word} :
    hasKnownVector w = true ↔ 0x20 ≤ (lowByte w).toNat ∧ (lowByte w).toNat ≤ 0x25 := by
  simp [hasKnownVector, lowByte_toNat]

theorem hasKnownVector_eq_false_iff {w : Word} :
    hasKnownVector w = false ↔ ¬ (0x20 ≤ (lowByte w).toNat ∧ (lowByte w).toNat ≤ 0x25) := by
  rw [← hasKnownVector_iff, Bool.not_eq_true]

/-- Opcode 15: the vector is one of the six, or the word is Invalid. -/
theorem hasFormat_decodeTrap {w : Word} (hop : (opcodeField w).toNat = 15) : HasFormat w (decodeTrap w) := by
  unfold decodeTrap
  split
  case h_1 hvec => exact .trapGetc hop hvec
  case h_2 hvec => exact .trapOut hop hvec
  case h_3 hvec => exact .trapPuts hop hvec
  case h_4 hvec => exact .trapIn hop hvec
  case h_5 hvec => exact .trapPutsp hop hvec
  case h_6 hvec => exact .trapHalt hop hvec
  case h_7 =>
    simp only [imp_false] at *
    exact .trapUnknown hop (hasKnownVector_eq_false_iff.2 (by omega))

/-- Every word stands in the row its decoder takes (R60: the decoder is total). -/
theorem hasFormat_decode (w : Word) : HasFormat w (decode w) := by
  unfold decode
  split
  case h_1 hop => exact .br hop
  case h_2 hop => cases hbit : bit5 w with
    | false => exact .addReg hop hbit
    | true => exact .addImm hop hbit
  case h_3 hop => exact .ld hop
  case h_4 hop => exact .st hop
  case h_5 hop => cases hbit : bit11 w with
    | false => exact .jsrr hop hbit
    | true => exact .jsr hop hbit
  case h_6 hop => cases hbit : bit5 w with
    | false => exact .andReg hop hbit
    | true => exact .andImm hop hbit
  case h_7 hop => exact .ldr hop
  case h_8 hop => exact .str hop
  case h_9 hop => exact .rti hop
  case h_10 hop => exact .not hop
  case h_11 hop => exact .ldi hop
  case h_12 hop => exact .sti hop
  case h_13 hop => exact .jmp hop
  case h_14 hop => exact .reserved13 hop
  case h_15 hop => exact .lea hop
  case h_16 =>
    have hlt := (opcodeField w).isLt
    simp only [imp_false] at *
    exact hasFormat_decodeTrap (by omega)

/-- The rows exclude each other: the row a word stands in is the one its decoder takes. -/
theorem decode_eq_of_hasFormat {w : Word} {i : Instr} (h : HasFormat w i) : decode w = i := by
  cases h with
  | br hop | ld hop | st hop | ldr hop | str hop | rti hop | not hop | ldi hop | sti hop | jmp hop | reserved13 hop
  | lea hop => simp only [decode, hop]
  | addReg hop hbit | addImm hop hbit | jsr hop hbit | jsrr hop hbit | andReg hop hbit | andImm hop hbit =>
    simp [decode, hop, hbit]
  | trapGetc hop hvec | trapOut hop hvec | trapPuts hop hvec | trapIn hop hvec | trapPutsp hop hvec
  | trapHalt hop hvec => simp only [decode, hop, decodeTrap, hvec]
  | trapUnknown hop hvec =>
    have hrange := hasKnownVector_eq_false_iff.1 hvec
    simp only [decode, hop, decodeTrap]
    split
    case h_7 => rfl
    all_goals omega

/-! ## The fields of an encoded word -/

/-- Two registers and six more bits: NOT, LDR, STR, and with R0 in the ignored field JMP and JSRR. -/
theorem fields_of_twoRegisters_format (op : BitVec 4) (a b : Reg) (rest : BitVec 6) :
    regField11 (op ++ a.toBits ++ b.toBits ++ rest) = a ∧ regField8 (op ++ a.toBits ++ b.toBits ++ rest) = b := by
  refine ⟨?_, ?_⟩
  · rw [regField11, extract_append_high _ _ 3 3, extract_append_high _ _ 0 3, extract_append_low, Reg.ofBits_toBits]
  · rw [regField8, extract_append_high _ _ 0 3, extract_append_low, Reg.ofBits_toBits]

/-- The register form of ADD and AND, with the selector of R64 at 0. -/
theorem fields_of_register_form (op : BitVec 4) (dr sr1 sr2 : Reg) :
    let w := op ++ dr.toBits ++ sr1.toBits ++ 0b000#3 ++ sr2.toBits
    bit5 w = false ∧ regField11 w = dr ∧ regField8 w = sr1 ∧ regField2 w = sr2 := by
  refine ⟨?_, ?_, ?_, ?_⟩
  · rw [bit5, BitVec.getLsbD_append, BitVec.getLsbD_append]
    simp
  · rw [regField11, extract_append_high _ _ 6 3, extract_append_high _ _ 3 3, extract_append_high _ _ 0 3,
      extract_append_low, Reg.ofBits_toBits]
  · rw [regField8, extract_append_high _ _ 3 3, extract_append_high _ _ 0 3, extract_append_low, Reg.ofBits_toBits]
  · rw [regField2, extract_append_low, Reg.ofBits_toBits]

/-- The immediate form of ADD and AND, with the selector of R64 at 1. -/
theorem fields_of_immediate_form (op : BitVec 4) (dr sr1 : Reg) {imm : Word} (himm : fitsImm5 imm = true) :
    let w := op ++ dr.toBits ++ sr1.toBits ++ 1#1 ++ imm.setWidth 5
    bit5 w = true ∧ regField11 w = dr ∧ regField8 w = sr1 ∧ sext 5 w = imm := by
  refine ⟨?_, ?_, ?_, ?_⟩
  · rw [bit5, BitVec.getLsbD_append, BitVec.getLsbD_append]
    simp
  · rw [regField11, extract_append_high _ _ 4 3, extract_append_high _ _ 3 3, extract_append_high _ _ 0 3,
      extract_append_low, Reg.ofBits_toBits]
  · rw [regField8, extract_append_high _ _ 1 3, extract_append_high _ _ 0 3, extract_append_low, Reg.ofBits_toBits]
  · rw [sext_congr BitVec.setWidth_append_eq_right, sext5_of_fits himm]

/-- Encoding puts every operand where the row of the instruction reads it. -/
theorem decode_encode {i : Instr} (hwf : i.wellFormed = true) : decode (encode i) = i := by
  cases i with
  | addReg dr sr1 sr2 =>
    obtain ⟨hbit, hdr, hsr1, hsr2⟩ := fields_of_register_form 0b0001#4 dr sr1 sr2
    rw [decode_eq_of_hasFormat (.addReg (Laws.EncodesOpcode.addReg dr sr1 sr2 hwf) hbit), encode, hdr, hsr1, hsr2]
  | andReg dr sr1 sr2 =>
    obtain ⟨hbit, hdr, hsr1, hsr2⟩ := fields_of_register_form 0b0101#4 dr sr1 sr2
    rw [decode_eq_of_hasFormat (.andReg (Laws.EncodesOpcode.andReg dr sr1 sr2 hwf) hbit), encode, hdr, hsr1, hsr2]
  | addImm dr sr1 imm =>
    obtain ⟨hbit, hdr, hsr1, himm⟩ := fields_of_immediate_form 0b0001#4 dr sr1 hwf
    rw [decode_eq_of_hasFormat (.addImm (Laws.EncodesOpcode.addImm dr sr1 imm hwf) hbit), encode, hdr, hsr1, himm]
  | andImm dr sr1 imm =>
    obtain ⟨hbit, hdr, hsr1, himm⟩ := fields_of_immediate_form 0b0101#4 dr sr1 hwf
    rw [decode_eq_of_hasFormat (.andImm (Laws.EncodesOpcode.andImm dr sr1 imm hwf) hbit), encode, hdr, hsr1, himm]
  | not dr sr =>
    obtain ⟨hdr, hsr⟩ := fields_of_twoRegisters_format 0b1001#4 dr sr 0b111111#6
    rw [decode_eq_of_hasFormat (.not (Laws.EncodesOpcode.not dr sr hwf)), encode, hdr, hsr]
  | br nzp off =>
    have hnzp : nzpField (encode (.br nzp off)) = nzp := by
      rw [nzpField, encode, extract_append_high _ _ 0 3, extract_append_low]
    have hoff : sext 9 (encode (.br nzp off)) = off := by
      rw [encode, sext_congr BitVec.setWidth_append_eq_right, sext9_of_fits hwf]
    rw [decode_eq_of_hasFormat (.br (Laws.EncodesOpcode.br nzp off hwf)), hnzp, hoff]
  | jmp baseR =>
    obtain ⟨-, hbase⟩ := fields_of_twoRegisters_format 0b1100#4 .r0 baseR 0#6
    exact (decode_eq_of_hasFormat (.jmp (Laws.EncodesOpcode.jmp baseR hwf))).trans (congrArg Instr.jmp hbase)
  | jsr off =>
    have hbit : bit11 (encode (.jsr off)) = true := by
      rw [bit11, encode, BitVec.getLsbD_append]
      simp
    have hoff : sext 11 (encode (.jsr off)) = off := by
      rw [encode, sext_congr BitVec.setWidth_append_eq_right, sext11_of_fits hwf]
    rw [decode_eq_of_hasFormat (.jsr (Laws.EncodesOpcode.jsr off hwf) hbit), hoff]
  | jsrr baseR =>
    have hbit : bit11 (encode (.jsrr baseR)) = false := by
      rw [bit11, encode, BitVec.getLsbD_append, BitVec.getLsbD_append]
      simp
    obtain ⟨-, hbase⟩ := fields_of_twoRegisters_format 0b0100#4 .r0 baseR 0#6
    exact (decode_eq_of_hasFormat (.jsrr (Laws.EncodesOpcode.jsrr baseR hwf) hbit)).trans (congrArg Instr.jsrr hbase)
  | ld dr off =>
    obtain ⟨hdr, hoff⟩ := Machine.fields_of_off9_format 0b0010#4 dr hwf
    rw [decode_eq_of_hasFormat (.ld (Laws.EncodesOpcode.ld dr off hwf)), encode, hdr, hoff]
  | ldi dr off =>
    obtain ⟨hdr, hoff⟩ := Machine.fields_of_off9_format 0b1010#4 dr hwf
    rw [decode_eq_of_hasFormat (.ldi (Laws.EncodesOpcode.ldi dr off hwf)), encode, hdr, hoff]
  | lea dr off =>
    obtain ⟨hdr, hoff⟩ := Machine.fields_of_off9_format 0b1110#4 dr hwf
    rw [decode_eq_of_hasFormat (.lea (Laws.EncodesOpcode.lea dr off hwf)), encode, hdr, hoff]
  | ldr dr baseR off =>
    obtain ⟨hdr, hbase⟩ := fields_of_twoRegisters_format 0b0110#4 dr baseR (off.setWidth 6)
    rw [decode_eq_of_hasFormat (.ldr (Laws.EncodesOpcode.ldr dr baseR off hwf)), encode, hdr, hbase,
      sext_congr BitVec.setWidth_append_eq_right, sext6_of_fits hwf]
  | st sr off => exact Machine.decode_encode_st hwf
  | sti sr off => exact Machine.decode_encode_sti hwf
  | str sr baseR off => exact Machine.decode_encode_str hwf
  | trapGetc | trapOut | trapPuts | trapIn | trapPutsp | trapHalt => rfl
  | trapUnknown w =>
    have hvec : hasKnownVector w = false := by simpa using (Bool.and_eq_true_iff.1 hwf).2
    exact decode_eq_of_hasFormat (.trapUnknown (Laws.EncodesOpcode.trapUnknown w hwf) hvec)
  | rti w => exact decode_eq_of_hasFormat (.rti (Laws.EncodesOpcode.rti w hwf))
  | reserved13 w => exact decode_eq_of_hasFormat (.reserved13 (Laws.EncodesOpcode.reserved13 w hwf))

/-- Settles O1, form by form: the encoded word stands in the instruction's row, and its fields are the operands. -/
theorem decodeOfEncodeGivesInstruction : Obligations.DecodeOfEncodeGivesInstruction :=
  fun _ => decode_encode

/-! ## Decoded instructions are well-formed -/

/-- The extension of an n-bit field, in the bounds of the field's range (R63). -/
theorem signedIn_sext {n : Nat} (hn16 : n ≤ 16) {lo hi : Int} (hlo : lo ≤ -(2 ^ (n - 1))) (hhi : 2 ^ (n - 1) ≤ hi + 1)
    (w : Word) : signedIn lo hi (sext n w) = true := by
  obtain ⟨hge, hlt⟩ := sext_range hn16 w
  exact signedIn_iff.2 ⟨by omega, by omega⟩

theorem hasOpcode_of_opcodeField {op : Nat} {w : Word} (h : (opcodeField w).toNat = op) : hasOpcode op w = true := by
  rw [hasOpcode, ← opcodeField_toNat, h, beq_self_eq_true]

theorem HasFormat.wellFormed {w : Word} {i : Instr} (h : HasFormat w i) : i.wellFormed = true := by
  cases h with
  | br | ld | ldi | lea | st | sti => exact signedIn_sext (n := 9) (by decide) (by decide) (by decide) w
  | addImm | andImm => exact signedIn_sext (n := 5) (by decide) (by decide) (by decide) w
  | ldr | str => exact signedIn_sext (n := 6) (by decide) (by decide) (by decide) w
  | jsr => exact signedIn_sext (n := 11) (by decide) (by decide) (by decide) w
  | rti hop | reserved13 hop => exact hasOpcode_of_opcodeField hop
  | trapUnknown hop hvec => simp [Instr.wellFormed, hasOpcode_of_opcodeField hop, hvec]
  | addReg | andReg | not | jmp | jsrr | trapGetc | trapOut | trapPuts | trapIn | trapPutsp | trapHalt => rfl

/-- Settles O4: each row's operands are in the ranges of its fields, and an Invalid has its own class. -/
theorem decodedInstructionIsWellFormed : Obligations.DecodedInstructionIsWellFormed :=
  fun w => (hasFormat_decode w).wellFormed

/-! ## Invalid words -/

/-- R60: an Invalid's row is opcode 8, opcode 13 or a trap with another vector. -/
theorem HasFormat.isInvalid_cases {w : Word} {i : Instr} (h : HasFormat w i) (hinv : i.isInvalid = true) :
    (opcodeField w).toNat = 8 ∨ (opcodeField w).toNat = 13 ∨
      ((opcodeField w).toNat = 15 ∧ hasKnownVector w = false) := by
  cases h with
  | rti hop => exact .inl hop
  | reserved13 hop => exact .inr (.inl hop)
  | trapUnknown hop hvec => exact .inr (.inr ⟨hop, hvec⟩)
  | _ => exact absurd hinv Bool.false_ne_true

/-- Settles O5: the three clauses are rows of the table, and no other row is Invalid. -/
theorem invalidExactlyReservedOrUnknownVector : Obligations.InvalidExactlyReservedOrUnknownVector := by
  intro w
  have hrti : opcodeField w = 8#4 → decode w = .rti w := fun h =>
    decode_eq_of_hasFormat (.rti (congrArg BitVec.toNat h))
  have hreserved : opcodeField w = 13#4 → decode w = .reserved13 w := fun h =>
    decode_eq_of_hasFormat (.reserved13 (congrArg BitVec.toNat h))
  have hunknown : opcodeField w = 15#4 → ¬ (0x20 ≤ (lowByte w).toNat ∧ (lowByte w).toNat ≤ 0x25) →
      decode w = .trapUnknown w := fun h hvec =>
    decode_eq_of_hasFormat (.trapUnknown (congrArg BitVec.toNat h) (hasKnownVector_eq_false_iff.2 hvec))
  refine ⟨⟨fun hinv => ?_, ?_⟩, hrti, hreserved, hunknown⟩
  · obtain hop | hop | ⟨hop, hvec⟩ := (hasFormat_decode w).isInvalid_cases hinv
    · exact .inl (BitVec.eq_of_toNat_eq hop)
    · exact .inr (.inl (BitVec.eq_of_toNat_eq hop))
    · exact .inr (.inr ⟨BitVec.eq_of_toNat_eq hop, hasKnownVector_eq_false_iff.1 hvec⟩)
  · rintro (hop | hop | ⟨hop, hvec⟩)
    · rw [hrti hop]; rfl
    · rw [hreserved hop]; rfl
    · rw [hunknown hop hvec]; rfl

/-! ## Fields under a mask -/

section
variable {w m v : Word}

/-- A field that the mask covers stands unchanged in the masked word. -/
theorem extract_of_masked {k n : Nat} (hm : m.extractLsb' k n = BitVec.allOnes n) (h : w &&& m = v) :
    w.extractLsb' k n = v.extractLsb' k n := by
  rw [← h, BitVec.extractLsb'_and, hm, BitVec.and_allOnes]

theorem getLsbD_of_masked {k : Nat} (hm : m.getLsbD k = true) (h : w &&& m = v) : w.getLsbD k = v.getLsbD k := by
  rw [← h, BitVec.getLsbD_and, hm, Bool.and_true]

theorem opcodeField_of_masked (hm : m.extractLsb' 12 4 = BitVec.allOnes 4) (h : w &&& m = v) :
    (opcodeField w).toNat = (opcodeField v).toNat :=
  congrArg BitVec.toNat (extract_of_masked hm h)

theorem lowByte_of_masked (hm : m.extractLsb' 0 8 = BitVec.allOnes 8) (h : w &&& m = v) :
    (lowByte w).toNat = (lowByte v).toNat :=
  congrArg BitVec.toNat (extract_of_masked hm h)

end

theorem sext_eq_signExtend_extract {n : Nat} (hn : n ≤ 16) (w : Word) : sext n w = (w.extractLsb' 0 n).signExtend 16 := by
  rw [sext, BitVec.setWidth_eq_extractLsb' hn]

/-- Settles O6: each mask of the table fixes the opcode, and the selector or the vector where there is one, so the word
stands in that row. -/
theorem decodeReadsTheFieldsOfEachFormat : Obligations.DecodeReadsTheFieldsOfEachFormat := by
  intro w dr sr1 sr2 off9 off6 imm5 off11
  have h9 : off9 = sext 9 w := (sext_eq_signExtend_extract (by decide) w).symm
  have h6 : off6 = sext 6 w := (sext_eq_signExtend_extract (by decide) w).symm
  have h5 : imm5 = sext 5 w := (sext_eq_signExtend_extract (by decide) w).symm
  have h11 : off11 = sext 11 w := (sext_eq_signExtend_extract (by decide) w).symm
  rw [h9, h6, h5, h11]
  exact ⟨fun h => decode_eq_of_hasFormat (.addReg (opcodeField_of_masked rfl h) (getLsbD_of_masked rfl h)),
    fun h => decode_eq_of_hasFormat (.addImm (opcodeField_of_masked rfl h) (getLsbD_of_masked rfl h)),
    fun h => decode_eq_of_hasFormat (.andReg (opcodeField_of_masked rfl h) (getLsbD_of_masked rfl h)),
    fun h => decode_eq_of_hasFormat (.andImm (opcodeField_of_masked rfl h) (getLsbD_of_masked rfl h)),
    fun h => decode_eq_of_hasFormat (.not (opcodeField_of_masked rfl h)),
    fun h => decode_eq_of_hasFormat (.br (opcodeField_of_masked rfl h)),
    fun h => decode_eq_of_hasFormat (.jmp (opcodeField_of_masked rfl h)),
    fun h => decode_eq_of_hasFormat (.jsr (opcodeField_of_masked rfl h) (getLsbD_of_masked rfl h)),
    fun h => decode_eq_of_hasFormat (.jsrr (opcodeField_of_masked rfl h) (getLsbD_of_masked rfl h)),
    fun h => decode_eq_of_hasFormat (.ld (opcodeField_of_masked rfl h)),
    fun h => decode_eq_of_hasFormat (.ldi (opcodeField_of_masked rfl h)),
    fun h => decode_eq_of_hasFormat (.ldr (opcodeField_of_masked rfl h)),
    fun h => decode_eq_of_hasFormat (.lea (opcodeField_of_masked rfl h)),
    fun h => decode_eq_of_hasFormat (.st (opcodeField_of_masked rfl h)),
    fun h => decode_eq_of_hasFormat (.sti (opcodeField_of_masked rfl h)),
    fun h => decode_eq_of_hasFormat (.str (opcodeField_of_masked rfl h)),
    fun h => decode_eq_of_hasFormat (.trapGetc (opcodeField_of_masked rfl h) (lowByte_of_masked rfl h)),
    fun h => decode_eq_of_hasFormat (.trapOut (opcodeField_of_masked rfl h) (lowByte_of_masked rfl h)),
    fun h => decode_eq_of_hasFormat (.trapPuts (opcodeField_of_masked rfl h) (lowByte_of_masked rfl h)),
    fun h => decode_eq_of_hasFormat (.trapIn (opcodeField_of_masked rfl h) (lowByte_of_masked rfl h)),
    fun h => decode_eq_of_hasFormat (.trapPutsp (opcodeField_of_masked rfl h) (lowByte_of_masked rfl h)),
    fun h => decode_eq_of_hasFormat (.trapHalt (opcodeField_of_masked rfl h) (lowByte_of_masked rfl h))⟩

/-- Settles O7, by evaluating the decoder on the ten words. -/
theorem writtenWordsDecode : Obligations.WrittenWordsDecode := by
  unfold Obligations.WrittenWordsDecode
  decide

/-! ## Ignored bits -/

/-- R67's ignored bits, by operation: the bits of its word that an instruction is read from. -/
def Instr.readBits : Instr → Word
  | .addReg _ _ _ | .andReg _ _ _ => 0xFFE7#16
  | .not _ _ => 0xFFC0#16
  | .jmp _ => 0xF1C0#16
  | .jsrr _ => 0xF9C0#16
  | .trapGetc | .trapOut | .trapPuts | .trapIn | .trapPutsp | .trapHalt => 0xF0FF#16
  | _ => 0xFFFF#16

theorem HasFormat.readMask_eq {w : Word} {i : Instr} (h : HasFormat w i) : readMask w = i.readBits := by
  rw [readMask, ← opcodeField_toNat]
  cases h with
  | br hop | ld hop | st hop | ldr hop | str hop | rti hop | not hop | ldi hop | sti hop | jmp hop | reserved13 hop
  | lea hop => simp only [hop, Instr.readBits]
  | addReg hop hbit | andReg hop hbit | jsrr hop hbit =>
    rw [hop]
    exact if_neg (Bool.eq_false_iff.1 hbit)
  | addImm hop hbit | andImm hop hbit | jsr hop hbit =>
    rw [hop]
    exact if_pos hbit
  | trapGetc hop hvec | trapOut hop hvec | trapPuts hop hvec | trapIn hop hvec | trapPutsp hop hvec
  | trapHalt hop hvec =>
    have hknown : hasKnownVector w = true := hasKnownVector_iff.2 (by omega)
    simp [hop, hknown, Instr.readBits]
  | trapUnknown hop hvec => simp [hop, hvec, Instr.readBits]

theorem readMask_eq (w : Word) : readMask w = (decode w).readBits := (hasFormat_decode w).readMask_eq

section
variable {w w' m : Word} (h : w' &&& m = w &&& m)
include h

/-- Words that agree under a mask agree in every field the mask covers. -/
theorem extract_eq_of_and_eq {k n : Nat} (hm : m.extractLsb' k n = BitVec.allOnes n) :
    w'.extractLsb' k n = w.extractLsb' k n :=
  (extract_of_masked hm h).trans (extract_of_masked hm rfl).symm

theorem getLsbD_eq_of_and_eq {k : Nat} (hm : m.getLsbD k = true) : w'.getLsbD k = w.getLsbD k :=
  (getLsbD_of_masked hm h).trans (getLsbD_of_masked hm rfl).symm

theorem regField11_eq_of_and_eq (hm : m.extractLsb' 9 3 = BitVec.allOnes 3) : regField11 w' = regField11 w :=
  congrArg Reg.ofBits (extract_eq_of_and_eq h hm)

theorem regField8_eq_of_and_eq (hm : m.extractLsb' 6 3 = BitVec.allOnes 3) : regField8 w' = regField8 w :=
  congrArg Reg.ofBits (extract_eq_of_and_eq h hm)

theorem regField2_eq_of_and_eq (hm : m.extractLsb' 0 3 = BitVec.allOnes 3) : regField2 w' = regField2 w :=
  congrArg Reg.ofBits (extract_eq_of_and_eq h hm)

theorem opcodeField_eq_of_and_eq (hm : m.extractLsb' 12 4 = BitVec.allOnes 4) : opcodeField w' = opcodeField w :=
  extract_eq_of_and_eq h hm

theorem lowByte_eq_of_and_eq (hm : m.extractLsb' 0 8 = BitVec.allOnes 8) : lowByte w' = lowByte w :=
  extract_eq_of_and_eq h hm

end

/-- The register form of ADD and AND is read from every field but bits 4:3. -/
theorem register_form_fields_congr {w w' : Word} (h : w' &&& 0xFFE7#16 = w &&& 0xFFE7#16) :
    opcodeField w' = opcodeField w ∧ bit5 w' = bit5 w ∧ regField11 w' = regField11 w ∧ regField8 w' = regField8 w ∧
      regField2 w' = regField2 w :=
  ⟨opcodeField_eq_of_and_eq h rfl, getLsbD_eq_of_and_eq h rfl, regField11_eq_of_and_eq h rfl,
    regField8_eq_of_and_eq h rfl, regField2_eq_of_and_eq h rfl⟩

/-- A word that agrees with `w` in the bits read has the fields of its row, so it decodes alike. -/
theorem HasFormat.decode_congr {w w' : Word} {i : Instr} (hi : HasFormat w i)
    (h : w' &&& i.readBits = w &&& i.readBits) : decode w' = i := by
  have hwhole : i.readBits = BitVec.allOnes 16 → decode w' = i := fun hbits => by
    rw [hbits, BitVec.and_allOnes, BitVec.and_allOnes] at h
    rw [h, decode_eq_of_hasFormat hi]
  cases hi with
  | addReg hop hbit =>
    obtain ⟨hop', hbit', hdr, hsr1, hsr2⟩ := register_form_fields_congr h
    rw [← hdr, ← hsr1, ← hsr2]
    exact decode_eq_of_hasFormat (.addReg (hop' ▸ hop) (hbit'.trans hbit))
  | andReg hop hbit =>
    obtain ⟨hop', hbit', hdr, hsr1, hsr2⟩ := register_form_fields_congr h
    rw [← hdr, ← hsr1, ← hsr2]
    exact decode_eq_of_hasFormat (.andReg (hop' ▸ hop) (hbit'.trans hbit))
  | not hop =>
    change w' &&& 0xFFC0#16 = w &&& 0xFFC0#16 at h
    rw [← opcodeField_eq_of_and_eq h rfl] at hop
    rw [← regField11_eq_of_and_eq h rfl, ← regField8_eq_of_and_eq h rfl]
    exact decode_eq_of_hasFormat (.not hop)
  | jmp hop =>
    change w' &&& 0xF1C0#16 = w &&& 0xF1C0#16 at h
    rw [← opcodeField_eq_of_and_eq h rfl] at hop
    rw [← regField8_eq_of_and_eq h rfl]
    exact decode_eq_of_hasFormat (.jmp hop)
  | jsrr hop hbit =>
    change w' &&& 0xF9C0#16 = w &&& 0xF9C0#16 at h
    rw [← opcodeField_eq_of_and_eq h rfl] at hop
    rw [← regField8_eq_of_and_eq h rfl]
    exact decode_eq_of_hasFormat (.jsrr hop ((getLsbD_eq_of_and_eq h rfl).trans hbit))
  | trapGetc hop hvec | trapOut hop hvec | trapPuts hop hvec | trapIn hop hvec | trapPutsp hop hvec
  | trapHalt hop hvec =>
    change w' &&& 0xF0FF#16 = w &&& 0xF0FF#16 at h
    rw [← opcodeField_eq_of_and_eq h rfl] at hop
    rw [← lowByte_eq_of_and_eq h rfl] at hvec
    simp only [decode, hop, decodeTrap, hvec]
  | _ => exact hwhole rfl

/-- Settles O3: the mask is the bits read by the decoded instruction, and a word that agrees in them decodes alike. -/
theorem ignoredBitsDoNotChangeDecode : Obligations.IgnoredBitsDoNotChangeDecode := by
  intro w w' h
  rw [readMask_eq] at h
  exact (hasFormat_decode w).decode_congr h

/-! ## Encoding what was decoded -/

/-- The encoder writes an extended field's own bits back. -/
theorem setWidth_sext {n : Nat} (hn : 0 < n) (hn16 : n ≤ 16) (w : Word) : (sext n w).setWidth n = w.extractLsb' 0 n := by
  ext k hk
  rw [BitVec.getElem_setWidth, getLsbD_sext hn (by omega), if_pos hk, BitVec.getElem_extractLsb', Nat.zero_add]

/-- Two adjacent fields of a word are one field. -/
theorem extract_append_extract (w : Word) (k n len : Nat) :
    w.extractLsb' (k + n) len ++ w.extractLsb' k n = w.extractLsb' k (len + n) :=
  BitVec.extractLsb'_append_extractLsb'_eq_extractLsb' rfl

theorem extract_one_eq_ofBool (w : Word) (k : Nat) : w.extractLsb' k 1 = BitVec.ofBool (w.getLsbD k) := by
  ext j hj
  obtain rfl : j = 0 := by omega
  simp

/-- Parts of a concatenation may differ where the mask hides them. -/
theorem append_and_congr {a b : Nat} {x x' m : BitVec a} {y y' n : BitVec b} (hx : x &&& m = x' &&& m)
    (hy : y &&& n = y' &&& n) : (x ++ y) &&& (m ++ n) = (x' ++ y') &&& (m ++ n) := by
  rw [BitVec.and_append, BitVec.and_append, hx, hy]

theorem and_zero_congr {a : Nat} (x x' : BitVec a) : x &&& 0#a = x' &&& 0#a := by
  rw [BitVec.and_zero, BitVec.and_zero]

/-- A three-bit field whose top bit is 0, under the mask of that bit. -/
theorem extract_and_top {w : Word} {k : Nat} (h : w.getLsbD (k + 2) = false) :
    w.extractLsb' k 3 &&& 0b100#3 = 0b000#3 &&& 0b100#3 := by
  have htop : (w.extractLsb' k 3).getLsbD 2 = false := (BitVec.getLsbD_extractLsb' ..).trans h
  generalize w.extractLsb' k 3 = x at htop
  revert x; decide

section
variable {w : Word} {op : BitVec 4} (hop : (opcodeField w).toNat = op.toNat)
include hop

theorem opcode_nzp_eq_extract : op ++ nzpField w = w.extractLsb' 9 7 := by
  rw [← BitVec.eq_of_toNat_eq hop]
  exact extract_append_extract w 9 3 4

theorem opcode_registers_eq_extract : op ++ (regField11 w).toBits ++ (regField8 w).toBits = w.extractLsb' 6 10 := by
  rw [regField11, regField8, Reg.toBits_ofBits, Reg.toBits_ofBits]
  exact (congrArg (· ++ _) (opcode_nzp_eq_extract hop)).trans (extract_append_extract w 6 3 7)

theorem nzp_off9_format_eq : op ++ nzpField w ++ (sext 9 w).setWidth 9 = w := by
  rw [opcode_nzp_eq_extract hop, setWidth_sext (by decide) (by decide)]
  exact BitVec.extractLsb'_append_extractLsb'

theorem reg_off9_format_eq : op ++ (regField11 w).toBits ++ (sext 9 w).setWidth 9 = w := by
  rw [regField11, Reg.toBits_ofBits]
  exact nzp_off9_format_eq hop

theorem off6_format_eq : op ++ (regField11 w).toBits ++ (regField8 w).toBits ++ (sext 6 w).setWidth 6 = w := by
  rw [opcode_registers_eq_extract hop, setWidth_sext (by decide) (by decide)]
  exact BitVec.extractLsb'_append_extractLsb'

theorem immediate_form_eq (hbit : bit5 w = true) :
    op ++ (regField11 w).toBits ++ (regField8 w).toBits ++ 1#1 ++ (sext 5 w).setWidth 5 = w := by
  have hsel : w.extractLsb' 5 1 = 1#1 := (extract_one_eq_ofBool w 5).trans (congrArg BitVec.ofBool hbit)
  rw [opcode_registers_eq_extract hop, setWidth_sext (by decide) (by decide), ← hsel]
  calc _ = w.extractLsb' 5 11 ++ w.extractLsb' 0 5 := congrArg (· ++ _) (extract_append_extract w 5 1 10)
    _ = w := BitVec.extractLsb'_append_extractLsb'

theorem off11_format_eq (hbit : bit11 w = true) : op ++ 1#1 ++ (sext 11 w).setWidth 11 = w := by
  have hsel : w.extractLsb' 11 1 = 1#1 := (extract_one_eq_ofBool w 11).trans (congrArg BitVec.ofBool hbit)
  rw [← BitVec.eq_of_toNat_eq hop, setWidth_sext (by decide) (by decide), ← hsel]
  calc _ = w.extractLsb' 11 5 ++ w.extractLsb' 0 11 := congrArg (· ++ _) (extract_append_extract w 11 1 4)
    _ = w := BitVec.extractLsb'_append_extractLsb'

/-- The register form of ADD and AND: bits 4:3 are ignored. -/
theorem register_form_eq_masked (hbit : bit5 w = false) :
    (op ++ (regField11 w).toBits ++ (regField8 w).toBits ++ 0b000#3 ++ (regField2 w).toBits) &&& 0xFFE7#16 =
      w &&& 0xFFE7#16 := by
  rw [opcode_registers_eq_extract hop, regField2, Reg.toBits_ofBits]
  calc _ = (w.extractLsb' 6 10 ++ w.extractLsb' 3 3 ++ w.extractLsb' 0 3) &&& 0xFFE7#16 :=
        append_and_congr (m := BitVec.allOnes 10 ++ 0b100#3) (n := BitVec.allOnes 3)
          (append_and_congr rfl (extract_and_top hbit).symm) rfl
    _ = (w.extractLsb' 3 13 ++ w.extractLsb' 0 3) &&& 0xFFE7#16 :=
        congrArg (fun high => (high ++ w.extractLsb' 0 3) &&& 0xFFE7#16) (extract_append_extract w 3 3 10)
    _ = w &&& 0xFFE7#16 := congrArg (· &&& _) BitVec.extractLsb'_append_extractLsb'

/-- NOT: bits 5:0 are ignored. -/
theorem not_format_eq_masked (low : BitVec 6) :
    (op ++ (regField11 w).toBits ++ (regField8 w).toBits ++ low) &&& 0xFFC0#16 = w &&& 0xFFC0#16 := by
  rw [opcode_registers_eq_extract hop]
  calc _ = (w.extractLsb' 6 10 ++ w.extractLsb' 0 6) &&& 0xFFC0#16 :=
        append_and_congr (m := BitVec.allOnes 10) rfl (and_zero_congr low _)
    _ = w &&& 0xFFC0#16 := congrArg (· &&& _) BitVec.extractLsb'_append_extractLsb'

/-- JMP and JSRR, with the mask `sel` of the bits read from 11:9: bits 5:0 are ignored. -/
theorem base_format_eq_masked {sel : BitVec 3} (hsel : w.extractLsb' 9 3 &&& sel = 0b000#3 &&& sel) :
    (op ++ 0b000#3 ++ (regField8 w).toBits ++ 0b000000#6) &&& (0b1111#4 ++ sel ++ 0b111#3 ++ 0b000000#6) =
      w &&& (0b1111#4 ++ sel ++ 0b111#3 ++ 0b000000#6) := by
  rw [regField8, Reg.toBits_ofBits]
  calc _ = (op ++ w.extractLsb' 9 3 ++ w.extractLsb' 6 3 ++ w.extractLsb' 0 6) &&&
          (0b1111#4 ++ sel ++ 0b111#3 ++ 0b000000#6) :=
        append_and_congr (append_and_congr (append_and_congr rfl hsel.symm) rfl) (and_zero_congr _ _)
    _ = w &&& (0b1111#4 ++ sel ++ 0b111#3 ++ 0b000000#6) := by
        have hhigh := opcode_registers_eq_extract hop
        rw [regField11, regField8, Reg.toBits_ofBits, Reg.toBits_ofBits] at hhigh
        rw [hhigh]
        exact congrArg (· &&& _) BitVec.extractLsb'_append_extractLsb'

/-- TRAP: bits 11:8 are ignored. -/
theorem trap_format_eq_masked {vec : Nat} (hvec : (lowByte w).toNat = vec) :
    (op ++ 0x0#4 ++ BitVec.ofNat 8 vec) &&& 0xF0FF#16 = w &&& 0xF0FF#16 := by
  rw [← BitVec.eq_of_toNat_eq hop, ← hvec, BitVec.ofNat_toNat, BitVec.setWidth_eq]
  calc _ = (opcodeField w ++ w.extractLsb' 8 4 ++ lowByte w) &&& 0xF0FF#16 :=
        append_and_congr (m := 0xF#4 ++ 0x0#4) (n := 0xFF#8) (append_and_congr rfl (and_zero_congr _ _)) rfl
    _ = (w.extractLsb' 8 8 ++ lowByte w) &&& 0xF0FF#16 :=
        congrArg (fun high => (high ++ lowByte w) &&& 0xF0FF#16) (extract_append_extract w 8 4 4)
    _ = w &&& 0xF0FF#16 := congrArg (· &&& _) BitVec.extractLsb'_append_extractLsb'

end

/-- The encoded word of a row agrees with the word in the bits the row reads. -/
theorem HasFormat.encode_eq_masked {w : Word} {i : Instr} (h : HasFormat w i) :
    encode i &&& i.readBits = w &&& i.readBits := by
  cases h with
  | br hop => exact congrArg (· &&& _) (nzp_off9_format_eq hop)
  | ld hop | ldi hop | lea hop | st hop | sti hop => exact congrArg (· &&& _) (reg_off9_format_eq hop)
  | ldr hop | str hop => exact congrArg (· &&& _) (off6_format_eq hop)
  | addImm hop hbit | andImm hop hbit => exact congrArg (· &&& _) (immediate_form_eq hop hbit)
  | jsr hop hbit => exact congrArg (· &&& _) (off11_format_eq hop hbit)
  | addReg hop hbit | andReg hop hbit => exact register_form_eq_masked hop hbit
  | not hop => exact not_format_eq_masked hop 0b111111#6
  | jmp hop => exact base_format_eq_masked hop (and_zero_congr _ _)
  | jsrr hop hbit => exact base_format_eq_masked hop (extract_and_top hbit)
  | trapGetc hop hvec | trapOut hop hvec | trapPuts hop hvec | trapIn hop hvec | trapPutsp hop hvec
  | trapHalt hop hvec => exact trap_format_eq_masked (op := 0xF#4) hop hvec
  | trapUnknown | rti | reserved13 => rfl

/-- Settles O2: the encoder puts each field of the row back, and the mask is the bits the row reads. -/
theorem encodeOfDecodeKeepsReadBits : Obligations.EncodeOfDecodeKeepsReadBits := by
  intro w
  rw [readMask_eq]
  exact (hasFormat_decode w).encode_eq_masked

end Sys2Proof

/-! The rules of 40_cycle.md: a step fetches, decodes and executes (R90), also where the word at PC is an encoded instruction
(R73) or was placed there (log 21), a halted core rests (R91), and only GETC and IN ever stop (R94, R95). -/

namespace Sys2Proof.Machine

/-! ## The fetched instruction -/

/-- Settles O21: from a ready state, a step is exec of the fetched word, and `fetch` is R90's read and increment. -/
theorem stepRunsDecodedInstruction : Obligations.StepRunsDecodedInstruction :=
  fun _ => step_of_ready

/-- Settles O26, by the step's first case. -/
theorem haltedCoreChangesNothing : Obligations.HaltedCoreChangesNothing :=
  fun _ => step_of_halted

/-- Settles O22: away from the status cell the fetch reads the cell at PC, and its word decodes back to the instruction. -/
theorem stepRunsEncodedInstruction : Obligations.StepRunsEncodedInstruction := by
  intro s i hready hpc hwf hword
  rw [step_of_ready_other hready hpc, hword, decode_encode hwf]
  rfl

/-! ## A placed word -/

/-- All 16 bits of a word are placed. -/
theorem State.withFetchWord_toNat (s : State) (w : Word) : s.withFetchWord 16 w.toNat = placeFetchWord s w := by
  rw [State.withFetchWord, Nat.mod_eq_of_lt w.isLt, BitVec.ofNat_toNat, BitVec.setWidth_eq]

section
variable (s : State) (w : Word)

theorem placeFetchWord_ready : (placeFetchWord s w).ready := ⟨rfl, rfl⟩

/-- A word is placed at PC, and at the load address if PC is the status cell. -/
theorem placeFetchWord_pc : (placeFetchWord s w).pc = if s.pc = Config.kbsrAddr then Config.pcReset else s.pc := rfl

/-- The fetch of a placed word polls nothing. -/
theorem placeFetchWord_pc_ne_kbsr : (placeFetchWord s w).pc ≠ Config.kbsrAddr := by
  rw [placeFetchWord_pc]
  split
  · decide
  · assumption

/-- The placed word stands at PC, and no other cell changes. -/
theorem cell_placeFetchWord (a : Word) :
    (placeFetchWord s w).cell a = if a = (placeFetchWord s w).pc then w else s.cell a :=
  State.cell_setCell _ _ _ _

/-- The step after a word is placed runs it, with PC incremented. -/
theorem step_placeFetchWord :
    step (placeFetchWord s w) = exec (decode w) ((placeFetchWord s w).setPc ((placeFetchWord s w).pc + 1)) := by
  rw [step_of_ready_other (placeFetchWord_ready s w) (placeFetchWord_pc_ne_kbsr s w), cell_placeFetchWord, if_pos rfl]

end

/-- Settles O24: the word runs on the placed state with PC incremented; away from the status cell it was placed at PC. -/
theorem placedWordRunsNext : Obligations.PlacedWordRunsNext := by
  intro s w
  rw [State.withFetchWord_toNat]
  refine ⟨_, step_placeFetchWord s w, rfl, rfl, rfl, rfl, rfl, placeFetchWord_ready s w, fun hpc => ?_⟩
  have hat : (placeFetchWord s w).pc = s.pc := if_neg hpc
  refine ⟨congrArg (· + 1) hat, fun a ha => ?_⟩
  calc (placeFetchWord s w).cell a = if a = s.pc then w else s.cell a := by rw [cell_placeFetchWord, hat]
    _ = s.cell a := if_neg ha

/-! ## Where a step stops -/

/-- GETC's and IN's read completes, or waits for a host whose input has ended (R94(c), D17). -/
theorem readCharToR0_completes_or_waits (s : State) :
    (∃ t, readCharToR0 s = .next t) ∨
    (∃ w, readCharToR0 s = .fault (.waitingForInput w) ∧ w.host.keys = [] ∧ w.host.ends = true) := by
  obtain ⟨hread, e⟩ | ⟨_, _, -, e⟩ := readCharToR0_cases s
  · exact .inr ⟨s, e, HostInput.readChar_eq_none.1 hread⟩
  · exact .inl ⟨_, e⟩

/-- An instruction completes, or it is GETC or IN and waits for a host whose input has ended. -/
theorem exec_completes_or_waits (i : Instr) (s : State) :
    (∃ t, exec i s = .next t) ∨
    (i.readsChar = true ∧ ∃ w, exec i s = .fault (.waitingForInput w) ∧ w.host.keys = [] ∧ w.host.ends = true) := by
  cases i with
  | trapGetc => exact (readCharToR0_completes_or_waits s).imp_right fun hwaits => ⟨rfl, hwaits⟩
  | trapIn =>
    exact (readCharToR0_completes_or_waits (s.writeText Config.inPrompt)).imp_right fun hwaits => ⟨rfl, hwaits⟩
  | addReg | addImm | andReg | andImm | not | br | jmp | jsr | jsrr | ld | ldi | ldr | lea | st | sti | str | trapOut
  | trapPuts | trapPutsp | trapHalt | trapUnknown | rti | reserved13 => exact .inl ⟨_, rfl⟩

/-- Settles O28, by the three kinds of step: a halted core and a further part of a string routine answer a state, and a
started instruction completes or waits. -/
theorem stepStopsOnlyWaitingForInput : Obligations.StepStopsOnlyWaitingForInput := by
  intro s
  obtain ⟨-, e⟩ | ⟨_, -, -, e⟩ | ⟨hrun, hprinting, e⟩ := step_cases s <;> rw [e]
  · exact .inl ⟨_, rfl⟩
  · exact .inl ⟨_, rfl⟩
  · refine (exec_completes_or_waits (decode (fetch s).1) (fetch s).2).imp_right ?_
    rintro ⟨hreads, w, hwait, hkeys, hends⟩
    exact ⟨w, hwait, ⟨hrun, hprinting⟩, hkeys, hends, hreads⟩

end Sys2Proof.Machine

/-! The rules of 41_operate.md: the value and the flag that ADD (R100, R101, R105), AND (R102, R103) and NOT (R104) leave.
The two forms of ADD and of AND are one operation on a second operand, so each operation has one rule, for every `Src`. -/

namespace Sys2Proof.Machine

/-- The flag of a result is that of the value its register then holds. -/
theorem State.setResult_cond_eq_flagOf_reg (s : State) (dr : Reg) (v : Word) :
    (s.setResult dr v).cond = flagOf ((s.setResult dr v).reg dr) := by
  rw [State.setResult_cond, State.reg_setResult_self]

/-- ADD completes with the sum mod 2^16, whatever its second operand is. -/
theorem addOp_completes (dr sr1 : Reg) (o : Src) (s : State) :
    ∃ t, addOp dr sr1 o s = .next t ∧
      (t.reg dr).toNat = ((s.reg sr1).toNat + (o.value s).toNat) % 65536 ∧ t.cond = flagOf (t.reg dr) := by
  refine ⟨_, rfl, ?_, State.setResult_cond_eq_flagOf_reg _ _ _⟩
  rw [State.reg_setResult_self]
  exact BitVec.toNat_add _ _

/-- AND completes with the bitwise and, whatever its second operand is. -/
theorem andOp_completes (dr sr1 : Reg) (o : Src) (s : State) :
    ∃ t, andOp dr sr1 o s = .next t ∧
      (∀ k, (t.reg dr).getLsbD k = ((s.reg sr1).getLsbD k && (o.value s).getLsbD k)) ∧ t.cond = flagOf (t.reg dr) := by
  refine ⟨_, rfl, fun k => ?_, State.setResult_cond_eq_flagOf_reg _ _ _⟩
  rw [State.reg_setResult_self]
  exact BitVec.getLsbD_and

/-- Settles O37: both forms are `addOp`, with a register and with an immediate as the second operand. -/
theorem addWritesSumAndFlag : Obligations.AddWritesSumAndFlag :=
  fun s dr sr1 sr2 imm => ⟨addOp_completes dr sr1 (.reg sr2) s, addOp_completes dr sr1 (.imm imm) s⟩

/-- Settles O38: both forms are `andOp`, with a register and with an immediate as the second operand. -/
theorem andWritesBitwiseAndAndFlag : Obligations.AndWritesBitwiseAndAndFlag :=
  fun s dr sr1 sr2 imm => ⟨andOp_completes dr sr1 (.reg sr2) s, andOp_completes dr sr1 (.imm imm) s⟩

/-- Settles O39: the complement of a word is 65535 minus its number. -/
theorem notWritesComplementAndFlag : Obligations.NotWritesComplementAndFlag := by
  intro s dr sr
  refine ⟨_, rfl, ?_, State.setResult_cond_eq_flagOf_reg _ _ _⟩
  rw [State.reg_setResult_self]
  exact BitVec.toNat_not

end Sys2Proof.Machine

/-! The rules of 42_control.md: when BR is taken (R110), and where JMP (R111), JSR (R112) and JSRR (R113) go. A flag is one bit
of COND, so BR's test reads one bit of nzp; JSR and JSRR are one link and one jump, to two targets. -/

namespace Sys2Proof.Machine

/-! ## BR's condition -/

/-- Where COND holds one bit, BR's test reads that bit of nzp. -/
theorem branchTaken_of_cond_eq_twoPow {s : State} {k : Nat} (hk : k < 16) (hcond : s.cond = BitVec.twoPow 16 k)
    (nzp : BitVec 3) : branchTaken nzp s = nzp.getLsbD k := by
  have hbit : (nzp.setWidth 16).getLsbD k = nzp.getLsbD k := by simp [hk]
  rw [branchTaken, hcond, BitVec.and_twoPow, hbit]
  cases nzp.getLsbD k with
  | false => rfl
  | true =>
    have hne : BitVec.twoPow 16 k ≠ 0#16 := fun hzero => by
      simpa [hk] using congrArg (BitVec.getLsbD · k) hzero
    simpa using hne

/-- BR's test, by the three flags: n is bit 2 of nzp, z bit 1, p bit 0 (R110, R25). -/
theorem branchTaken_iff_selects_flag {s : State} (hlegal : s.condLegal) (nzp : BitVec 3) :
    branchTaken nzp s = true ↔
      (nzp.getLsbD 2 = true ∧ s.cond = Config.flagN) ∨ (nzp.getLsbD 1 = true ∧ s.cond = Config.flagZ) ∨
        (nzp.getLsbD 0 = true ∧ s.cond = Config.flagP) := by
  have hPZ : Config.flagP ≠ Config.flagZ := by decide
  have hPN : Config.flagP ≠ Config.flagN := by decide
  have hZN : Config.flagZ ≠ Config.flagN := by decide
  obtain hcond | hcond | hcond := hlegal
  · rw [branchTaken_of_cond_eq_twoPow (k := 0) (by decide) hcond, hcond]
    simp [hPZ, hPN]
  · rw [branchTaken_of_cond_eq_twoPow (k := 1) (by decide) hcond, hcond]
    simp [hPZ.symm, hZN]
  · rw [branchTaken_of_cond_eq_twoPow (k := 2) (by decide) hcond, hcond]
    simp [hPN.symm, hZN.symm]

/-- Settles O40: BR goes to its target exactly when its test selects the current flag. -/
theorem brIsTakenByTheCurrentFlag : Obligations.BrIsTakenByTheCurrentFlag :=
  fun _ nzp _ hlegal => congrArg Host.Outcome.next (if_congr (branchTaken_iff_selects_flag hlegal nzp) rfl rfl)

/-! ## Jumps and links -/

/-- Settles O41: JMP is one write of PC. -/
theorem jmpTakesPcFromRegister : Obligations.JmpTakesPcFromRegister :=
  fun _ _ => rfl

/-- A register after a write of one register. -/
theorem State.reg_setReg (s : State) (r q : Reg) (v : Word) :
    (s.setReg r v).reg q = if q = r then v else s.reg q :=
  Regs.get_set s.regs r q v

/-- The state after a link in R7 and a jump differs from the one before in R7 and PC alone. -/
theorem State.link_then_jump (s : State) (target : Word) :
    let t := (s.setReg .r7 s.pc).setPc target
    t.reg .r7 = s.pc ∧ t.pc = target ∧ (∀ r, r ≠ .r7 → t.reg r = s.reg r) ∧ t = { s with regs := t.regs, pc := t.pc } :=
  ⟨s.reg_setReg_self .r7 s.pc, rfl, fun _ hr => Regs.get_set_other s.regs s.pc hr, rfl⟩

/-- Settles O42: JSR's target is taken from the same incremented PC as its link. -/
theorem jsrLinksAndBranches : Obligations.JsrLinksAndBranches :=
  fun s off => ⟨_, rfl, s.link_then_jump (s.pc + off)⟩

/-- Settles O43: JSRR's target is read after the link is written, so R7 gives the link and any other register its old value. -/
theorem jsrrLinksThenReadsBase : Obligations.JsrrLinksThenReadsBase := by
  intro s baseR
  rw [← s.reg_setReg .r7 baseR s.pc]
  exact ⟨_, rfl, s.link_then_jump _⟩

end Sys2Proof.Machine

/-! The rules of 43_load.md: LD (R120), LDI (R121) and LDR (R122) end in one and the same load from an effective address, and
LEA (R123) leaves the address itself. -/

namespace Sys2Proof.Machine

/-- A load completes with the word read and its flag, and with the memory and host input that its read leaves. -/
theorem loadFrom_completes (dr : Reg) (ea : Word) (s : State) :
    ∃ t, loadFrom dr ea s = .next t ∧ t.reg dr = (s.memRead ea).1 ∧ t.cond = flagOf (t.reg dr) ∧
      t.mem = (s.memRead ea).2.mem ∧ t.host = (s.memRead ea).2.host :=
  ⟨_, rfl, State.reg_setResult_self _ _ _, State.setResult_cond_eq_flagOf_reg _ _ _, State.setResult_mem _ _ _,
    State.setResult_host _ _ _⟩

/-- Settles O44: each is a load from its own address; LDI's is the pointer, and it starts in the state the pointer's read left. -/
theorem loadsReadTheirCell : Obligations.LoadsReadTheirCell := by
  intro s dr baseR off
  refine ⟨loadFrom_completes dr (pcRelative off s) s, ?_, loadFrom_completes dr (baseOffset baseR off s) s⟩
  obtain ⟨t, hload⟩ := loadFrom_completes dr (pointerAt off s).1 (pointerAt off s).2
  exact ⟨t, (pointerAt off s).1, (pointerAt off s).2, rfl, hload⟩

/-- Settles O45: LEA's result is the address, so nothing is read. -/
theorem leaWritesAddressAndFlag : Obligations.LeaWritesAddressAndFlag :=
  fun s dr off => ⟨_, rfl, s.reg_setResult_self dr (pcRelative off s), s.setResult_cond dr (pcRelative off s), rfl⟩

end Sys2Proof.Machine

/-! The rules of 44_store.md: ST (R130), STI (R131) and STR (R132) end in one and the same store to an effective address, and
write no register and no flag (R133). -/

namespace Sys2Proof.Machine

/-- A store completes with the register's word in the cell at its address, and writes nothing else. -/
theorem storeTo_completes (sr : Reg) (ea : Word) (s : State) :
    ∃ t, storeTo sr ea s = .next t ∧ (∀ a : Word, t.cell a = if a = ea then s.reg sr else s.cell a) ∧
      t = { s with mem := t.mem } :=
  ⟨_, rfl, s.cell_setCell ea (s.reg sr), rfl⟩

/-- Settles O46: each is a store to its own address, in the state it starts from. -/
theorem storesWriteOneCell : Obligations.StoresWriteOneCell :=
  fun s sr baseR off => ⟨storeTo_completes sr (pcRelative off s) s, storeTo_completes sr (baseOffset baseR off s) s⟩

/-- A read writes no field but memory and the host's input, and these by a poll (20_memory.md R43, R45). -/
theorem State.afterRead_eq (s : State) (a : Word) :
    s.afterRead a = { s with mem := (s.afterRead a).mem, host := (s.afterRead a).host } := by
  apply State.eq_of_fields <;> simp

/-- Settles O47: STI is a store to the pointer, in the state the pointer's read left, whose registers are those before it. -/
theorem stiWritesCellAtPointer : Obligations.StiWritesCellAtPointer := by
  intro s sr off
  obtain ⟨t, hstore, hcell, hrest⟩ := storeTo_completes sr (pointerAt off s).1 (pointerAt off s).2
  have hhost : t.host = (pointerAt off s).2.host := by rw [hrest]
  have hreg : (pointerAt off s).2.reg sr = s.reg sr := s.afterRead_reg _ sr
  rw [hreg] at hcell
  refine ⟨t, hstore, hcell, hhost, ?_⟩
  calc
    t = { (pointerAt off s).2 with mem := t.mem } := hrest
    _ = { s with mem := t.mem, host := (pointerAt off s).2.host } :=
      congrArg (fun u : State => { u with mem := t.mem }) (s.afterRead_eq _)
    _ = { s with mem := t.mem, host := t.host } := by rw [hhost]

end Sys2Proof.Machine

/-! The rules of 45_trap.md: the character read of GETC and IN (R142, R145), the bytes OUT and HALT write (R143, R147), and the
string loop of PUTS and PUTSP (R144, R146): over a string that does not pass the status cell, without a bound, and with an
input that ends. -/

namespace Sys2Proof.Machine

/-! ## OUT and HALT -/

/-- Settles O50: OUT is one write of R0's low byte. -/
theorem outWritesLowByteOfR0 : Obligations.OutWritesLowByteOfR0 :=
  fun s => ⟨lowByte (s.reg .r0), lowByte_toNat _, rfl⟩

/-- Settles O56: HALT is one write of the notice and one write of the run state. -/
theorem haltWritesNoticeAndHalts : Obligations.HaltWritesNoticeAndHalts :=
  fun _ => rfl

/-! ## GETC and IN -/

theorem zextByte_toNat (c : Byte) : (zextByte c).toNat = c.toNat :=
  BitVec.toNat_setWidth_of_le (by decide)

/-- Where the host supplies a character, the read completes: the character in R0, and nothing but R0 and the host's input
changes. -/
theorem readCharToR0_completes {s : State} {c : Byte} {h : HostInput} (hread : s.host.readChar = some (c, h)) :
    ∃ t, readCharToR0 s = .next t ∧ (t.reg .r0).toNat = c.toNat ∧ (∀ r, r ≠ .r0 → t.reg r = s.reg r) ∧ t.host = h ∧
      t = { s with regs := t.regs, host := t.host } := by
  obtain ⟨hnone, -⟩ | ⟨c', h', hsome, e⟩ := readCharToR0_cases s
  · cases hread.symm.trans hnone
  · cases hread.symm.trans hsome
    have hr0 : ((s.regs.set .r0 (zextByte c)).get .r0).toNat = c.toNat := by rw [Regs.get_set_self, zextByte_toNat]
    exact ⟨_, e, hr0, fun _ hr => Regs.get_set_other s.regs _ hr, rfl, rfl⟩

/-- With an ended input and no keystroke listed the read waits, in the state it starts from (D17). -/
theorem readCharToR0_waits {s : State} (hkeys : s.host.keys = []) (hends : s.host.ends = true) :
    readCharToR0 s = .fault (.waitingForInput s) := by
  obtain ⟨-, e⟩ | ⟨_, _, hsome, -⟩ := readCharToR0_cases s
  · exact e
  · cases (HostInput.readChar_eq_none.2 ⟨hkeys, hends⟩).symm.trans hsome

/-- Settles O48, by the host's three cases: a listed keystroke, a free character, an ended input. -/
theorem getcReadsOneCharacter : Obligations.GetcReadsOneCharacter := by
  refine fun s => ⟨fun k ks hkeys => ?_, fun hkeys hends => ?_, readCharToR0_waits⟩
  · obtain ⟨t, e, hr0, hregs, hhost, hrest⟩ := readCharToR0_completes (HostInput.readChar_of_keys hkeys)
    exact ⟨t, e, hr0, hregs, congrArg HostInput.keys hhost, hrest⟩
  · obtain ⟨t, e, hr0, hregs, -, hrest⟩ := readCharToR0_completes (HostInput.readChar_of_free hkeys hends)
    exact ⟨t, e, hr0.trans_lt (BitVec.isLt _), hregs, hrest⟩

/-- The read after a prompt, where the host supplies a character: the prompt is on the console too. -/
theorem readCharToR0_writeText_completes {s : State} {c : Byte} {h : HostInput} (prompt : List Byte)
    (hread : s.host.readChar = some (c, h)) :
    ∃ t, readCharToR0 (s.writeText prompt) = .next t ∧ (t.reg .r0).toNat = c.toNat ∧ (∀ r, r ≠ .r0 → t.reg r = s.reg r) ∧
      t.host = h ∧ t.console = s.console ++ prompt ∧
      t = { s with regs := t.regs, host := t.host, console := t.console } := by
  obtain ⟨t, e, hr0, hregs, hhost, hrest⟩ := readCharToR0_completes (s := s.writeText prompt) hread
  have hconsole : t.console = s.console ++ prompt := congrArg State.console hrest
  refine ⟨t, e, hr0, hregs, hhost, hconsole, ?_⟩
  rw [hconsole]
  exact hrest

/-- Settles O49, by the same three cases as GETC, in the state with the prompt written. -/
theorem inPromptsThenReadsOneCharacter : Obligations.InPromptsThenReadsOneCharacter := by
  refine fun s => ⟨fun k ks hkeys => ?_, fun hkeys hends => ?_, readCharToR0_waits (s := s.writeText Config.inPrompt)⟩
  · obtain ⟨t, e, hr0, hregs, hhost, hconsole, hrest⟩ :=
      readCharToR0_writeText_completes Config.inPrompt (HostInput.readChar_of_keys hkeys)
    exact ⟨t, e, hr0, hregs, congrArg HostInput.keys hhost, hconsole, hrest⟩
  · obtain ⟨t, e, hr0, hregs, -, hconsole, hrest⟩ :=
      readCharToR0_writeText_completes Config.inPrompt (HostInput.readChar_of_free hkeys hends)
    exact ⟨t, e, hr0.trans_lt (BitVec.isLt _), hregs, hconsole, hrest⟩

/-! ## What one word of a string writes -/

/-- R144's byte. -/
theorem bytes_puts : StringKind.bytes .puts = fun w => [w.extractLsb' 0 8] := rfl

/-- R146's bytes: the high byte is the word's value divided by 256. -/
theorem bytes_putsp : StringKind.bytes .putsp =
    fun w => w.extractLsb' 0 8 :: if w.toNat / 256 = 0 then [] else [w.extractLsb' 8 8] := by
  funext w
  have hhigh : highByte w = 0#8 ↔ w.toNat / 256 = 0 := by
    have hw := w.isLt
    simp only [highByte, ← BitVec.toNat_inj, BitVec.extractLsb'_toNat, Nat.shiftRight_eq_div_pow, BitVec.toNat_ofNat]
    omega
  show (if highByte w = 0#8 then [lowByte w] else [lowByte w, highByte w]) = _
  rw [if_congr hhigh rfl rfl]
  split <;> rfl

/-! ## The way to the status cell -/

/-- How many addresses the loop passes from `a` before it reads the status cell. -/
def distToKbsr (a : Word) : Nat := (Config.kbsrAddr - a).toNat

theorem distToKbsr_kbsr : distToKbsr Config.kbsrAddr = 0 := by decide

/-- From the cell after the status cell, the whole of a lap but one. -/
theorem distToKbsr_kbsr_succ : distToKbsr (Config.kbsrAddr + 1) = 65535 := by decide

theorem distToKbsr_lt (a : Word) : distToKbsr a < 65536 := BitVec.isLt _

/-- Every other address is one further from the status cell than the next, mod 2^16 (D13). -/
theorem distToKbsr_succ {a : Word} (h : a ≠ Config.kbsrAddr) : distToKbsr a = distToKbsr (a + 1) + 1 := by
  unfold distToKbsr Config.kbsrAddr at *
  bv_omega

/-- A string that does not pass the status cell ends before it. -/
theorem length_lt_of_stringAt {s : State} {a : Word} {ws : List Word} (h : stringAt s a ws) : ws.length < distToKbsr a := by
  induction ws generalizing a with
  | nil =>
    obtain ⟨ha, -⟩ := h
    rw [distToKbsr_succ ha]
    exact Nat.succ_pos _
  | cons w ws ih =>
    obtain ⟨ha, -, -, hrest⟩ := h
    rw [distToKbsr_succ ha]
    exact Nat.succ_lt_succ (ih hrest)

/-! ## A string that does not pass the status cell -/

/-- With more reads than words, the loop writes the string's bytes after what the console held, and nothing else. -/
theorem stringLoop_of_stringAt (kind : StringKind) {s : State} {a : Word} {ws : List Word} (h : stringAt s a ws) {n : Nat}
    (hn : ws.length < n) (out : List Byte) :
    stringLoop kind n a { s with console := out } = { s with console := out ++ ws.flatMap kind.bytes } := by
  induction ws generalizing a n out with
  | nil =>
    obtain ⟨ha, hzero⟩ := h
    obtain ⟨n, rfl⟩ := Nat.exists_eq_add_one.2 (Nat.zero_lt_of_lt hn)
    have hcell : ({ s with console := out } : State).cell a = 0x0000#16 := hzero
    rw [stringLoop_succ, State.afterRead_other _ ha, if_pos hcell, List.flatMap_nil, List.append_nil]
  | cons w ws ih =>
    obtain ⟨ha, hword, hne, hrest⟩ := h
    obtain ⟨n, rfl⟩ := Nat.exists_eq_add_one.2 (Nat.zero_lt_of_lt hn)
    have hcell : ({ s with console := out } : State).cell a = w := hword
    rw [stringLoop_succ, State.afterRead_other _ ha, hcell, if_neg hne, List.flatMap_cons, ← List.append_assoc]
    exact ih hrest (Nat.lt_of_succ_lt_succ hn) (out ++ kind.bytes w)

/-- Two laps are within one step's reads. -/
theorem stringFuel_ge (s : State) : 131072 ≤ stringFuel s := by
  unfold stringFuel
  omega

/-- A string routine over a string that does not pass the status cell ends in its own step. -/
theorem stringFrom_of_stringAt (kind : StringKind) {s : State} {a : Word} {ws : List Word} (h : stringAt s a ws) :
    stringFrom kind a s = .next { s with console := s.console ++ ws.flatMap kind.bytes } := by
  have hlen := length_lt_of_stringAt h
  have hdist := distToKbsr_lt a
  have hfuel := stringFuel_ge s
  exact congrArg Host.Outcome.next (stringLoop_of_stringAt kind h (by omega) s.console)

/-- Settles O51: PUTS is the loop from R0 with one byte for each word. -/
theorem putsWritesLowBytesOfString : Obligations.PutsWritesLowBytesOfString := by
  intro s ws h
  rw [List.map_eq_flatMap, ← bytes_puts]
  exact stringFrom_of_stringAt .puts h

/-- Settles O52: PUTSP is the loop from R0 with the packed bytes of each word. -/
theorem putspWritesPackedBytesOfString : Obligations.PutspWritesPackedBytesOfString := by
  intro s ws h
  rw [← bytes_putsp]
  exact stringFrom_of_stringAt .putsp h

/-! ## A string routine under way -/

/-- Settles O55: the step is the loop from where the routine stood, with the loop's own frame. -/
theorem routineUnderWayOnlyPrints : Obligations.RoutineUnderWayOnlyPrints := by
  intro s p hrun hprinting
  obtain ⟨hhalted, -⟩ | ⟨q, -, hq, e⟩ | ⟨-, hnone, -⟩ := step_cases s
  · cases hrun.symm.trans hhalted
  · cases hprinting.symm.trans hq
    obtain ⟨hregs, hpc, hcond, hrun', hdiags, hconsole, hcells, -⟩ :=
      stringLoop_frame p.kind (stringFuel s) p.addr { s with printing := none }
    exact ⟨_, e, hregs, hpc, hcond, hrun', hdiags, hconsole, hcells, stringLoop_printing _ _ _ _⟩
  · cases hprinting.symm.trans hnone

/-- `s` with the routine `kind` under way at the address `a` (log 14). -/
def State.withRoutine (s : State) (kind : StringKind) (a : Word) : State := { s with printing := some ⟨kind, a⟩ }

/-- A step goes on with the routine under way, in the state without its mark. -/
theorem step_withRoutine {v : State} (hready : v.ready) (kind : StringKind) (a : Word) :
    step (v.withRoutine kind a) = stringFrom kind a v := by
  obtain ⟨hrun, hprinting⟩ := hready
  cases v
  cases hrun
  cases hprinting
  rfl

/-! ## The loop without a bound -/

theorem stringLoop_succ_of_zero {kind : StringKind} {n : Nat} {a : Word} {s : State} (h : (s.memRead a).1 = 0x0000#16) :
    stringLoop kind (n + 1) a s = (s.memRead a).2 :=
  if_pos h

theorem stringLoop_succ_of_word {kind : StringKind} {n : Nat} {a : Word} {s : State} (h : (s.memRead a).1 ≠ 0x0000#16) :
    stringLoop kind (n + 1) a s = stringLoop kind n (a + 1) ((s.memRead a).2.writeText (kind.bytes (s.memRead a).1)) :=
  if_neg h

/-- What the bounded loop leaves: the end of the loop without a bound, or a routine under way from whose place that loop goes
on to the same ends. -/
theorem stringLoop_cases (kind : StringKind) (n : Nat) (a : Word) {s : State} (hprinting : s.printing = none) :
    ((stringLoop kind n a s).printing = none ∧ StringRun kind.bytes a s (stringLoop kind n a s)) ∨
    ∃ b v, v.printing = none ∧ stringLoop kind n a s = v.withRoutine kind b ∧
      ∀ u, StringRun kind.bytes b v u → StringRun kind.bytes a s u := by
  induction n generalizing a s with
  | zero => exact .inr ⟨a, s, hprinting, rfl, fun _ => id⟩
  | succ n ih =>
    rw [stringLoop_succ]
    split
    next hzero => exact .inl ⟨by simpa using hprinting, .exit a s hzero⟩
    next hword =>
      obtain ⟨hended, hruns⟩ | ⟨b, v, hv, e, hruns⟩ :=
        ih (a + 1) (s := (s.afterRead a).writeText (kind.bytes ((s.afterRead a).cell a))) (by simpa using hprinting)
      · exact .inl ⟨hended, .next a s _ hword hruns⟩
      · exact .inr ⟨b, v, hv, e, fun u hu => .next a s u hword (hruns u hu)⟩

/-- A step reads at least one word, so a loop out of reads gets on in the next step. -/
theorem routineEnds_of_one_read {kind : StringKind} {a : Word} {s u : State} (hready : s.ready)
    (hloop : ∀ m, RoutineEnds (stringLoop kind (m + 1) a s) u) (n : Nat) : RoutineEnds (stringLoop kind n a s) u := by
  cases n with
  | succ m => exact hloop m
  | zero =>
    obtain ⟨m, hm⟩ := Nat.exists_eq_add_one.2 (Nat.lt_of_lt_of_le (by decide) (stringFuel_ge s))
    refine .goesOn _ _ u (Option.some_ne_none _) (step_withRoutine hready kind a) ?_
    rw [hm]
    exact hloop m

/-- Where the loop without a bound ends, the routine ends, however many reads the step at hand has left. -/
theorem routineEnds_of_stringRun {kind : StringKind} {a : Word} {s u : State} (hruns : StringRun kind.bytes a s u)
    (hready : s.ready) (n : Nat) : RoutineEnds (stringLoop kind n a s) u := by
  induction hruns generalizing n with
  | exit a s hzero =>
    refine routineEnds_of_one_read hready (fun m => ?_) n
    rw [stringLoop_succ_of_zero hzero]
    exact .ended _ (by simpa using hready.2)
  | next a s u hword _ ih =>
    refine routineEnds_of_one_read hready (fun m => ?_) n
    rw [stringLoop_succ_of_word hword]
    exact ih (by simpa [State.ready] using hready) m

/-- A routine ends only where the loop without a bound ends. -/
theorem stringRun_of_routineEnds {kind : StringKind} {n : Nat} {a : Word} {s t u : State} (hends : RoutineEnds t u)
    (ht : t = stringLoop kind n a s) (hready : s.ready) : StringRun kind.bytes a s u := by
  induction hends generalizing n a s with
  | ended t h =>
    obtain ⟨-, hruns⟩ | ⟨b, v, -, e, -⟩ := stringLoop_cases kind n a hready.2
    · exact ht ▸ hruns
    · cases h.symm.trans (congrArg State.printing (ht.trans e))
  | goesOn t t' u h hs _ ih =>
    obtain ⟨hended, -⟩ | ⟨b, v, hv, e, hruns⟩ := stringLoop_cases kind n a hready.2
    · exact absurd (ht ▸ hended) h
    · have hrun : v.run = .running := by
        have hloop := stringLoop_run kind n a s
        rw [e] at hloop
        exact hloop.trans hready.1
      rw [ht, e, step_withRoutine ⟨hrun, hv⟩ kind b] at hs
      cases hs
      exact hruns u (ih rfl ⟨hrun, hv⟩)

/-- A string routine is the loop without a bound. -/
theorem stringRun_iff_routineEnds (kind : StringKind) (a : Word) {s : State} (hready : s.ready) (u : State) :
    StringRun kind.bytes a s u ↔ ∃ t, stringFrom kind a s = .next t ∧ RoutineEnds t u := by
  constructor
  · exact fun hruns => ⟨_, rfl, routineEnds_of_stringRun hruns hready _⟩
  · rintro ⟨t, e, hends⟩
    cases e
    exact stringRun_of_routineEnds hends rfl hready

/-- Settles O53: each routine is the loop from R0 with its own bytes. -/
theorem stringRoutinesFollowTheLoop : Obligations.StringRoutinesFollowTheLoop := by
  intro s u hready
  rw [← bytes_puts, ← bytes_putsp]
  exact ⟨stringRun_iff_routineEnds .puts (s.reg .r0) hready u, stringRun_iff_routineEnds .putsp (s.reg .r0) hready u⟩

/-! ## An input that ends -/

/-- With an ended input, a poll that leaves a non-zero status word has taken a listed keystroke. -/
theorem State.keys_poll_of_ends {s : State} (hends : s.host.ends = true)
    (hstatus : s.keyboardPoll.cell Config.kbsrAddr ≠ 0x0000#16) :
    s.host.keys.length = s.host.poll.2.keys.length + 1 := by
  rw [s.cell_keyboardPoll_kbsr] at hstatus
  obtain ⟨_, _, hkeys, e⟩ | ⟨_, _, _, -, e⟩ | ⟨-, -, e⟩ | ⟨-, hfree, -⟩ | ⟨-, hfree, -⟩ := s.host.poll_cases
  · simp [e, hkeys]
  · simp [e] at hstatus
  · simp [e] at hstatus
  · cases hends.symm.trans hfree
  · cases hends.symm.trans hfree

/-- With an ended input the loop ends within the way to the status cell and one lap for each listed keystroke. -/
theorem stringLoop_ends_of_input_ends (kind : StringKind) {n : Nat} {a : Word} {s : State} (hends : s.host.ends = true)
    (hprinting : s.printing = none) (hn : s.host.keys.length * 65536 + distToKbsr a < n) :
    (stringLoop kind n a s).printing = none := by
  induction n generalizing a s with
  | zero => exact absurd hn (Nat.not_lt_zero _)
  | succ n ih =>
    rw [stringLoop_succ]
    split
    next => simpa using hprinting
    next hword =>
      by_cases ha : a = Config.kbsrAddr
      · subst ha
        rw [s.afterRead_kbsr] at hword ⊢
        refine ih (by simpa using hends) (by simpa using hprinting) ?_
        rw [State.keys_poll_of_ends hends hword, distToKbsr_kbsr] at hn
        rw [distToKbsr_kbsr_succ, State.writeText_host, s.keyboardPoll_host]
        omega
      · rw [s.afterRead_other ha]
        refine ih hends hprinting ?_
        rw [distToKbsr_succ ha] at hn
        exact Nat.lt_of_succ_lt_succ hn

/-- With an ended input a string routine ends in its own step, where the loop without a bound ends. -/
theorem stringFrom_ends_of_input_ends (kind : StringKind) (a : Word) {s : State} (hends : s.host.ends = true)
    (hprinting : s.printing = none) :
    ∃ t, stringFrom kind a s = .next t ∧ t.printing = none ∧ StringRun kind.bytes a s t := by
  have hfuel : s.host.keys.length * 65536 + distToKbsr a < stringFuel s := by
    have hdist := distToKbsr_lt a
    unfold stringFuel
    omega
  have hended := stringLoop_ends_of_input_ends kind hends hprinting hfuel
  obtain ⟨-, hruns⟩ | ⟨b, v, -, e, -⟩ := stringLoop_cases kind (stringFuel s) a hprinting
  · exact ⟨_, rfl, hended, hruns⟩
  · rw [e] at hended
    cases hended

/-- Settles O54: each routine is the loop from R0 with its own bytes. -/
theorem stringRoutinesEndWhenInputEnds : Obligations.StringRoutinesEndWhenInputEnds := by
  intro s hends hprinting
  rw [← bytes_puts, ← bytes_putsp]
  exact ⟨stringFrom_ends_of_input_ends .puts (s.reg .r0) hends hprinting,
    stringFrom_ends_of_input_ends .putsp (s.reg .r0) hends hprinting⟩

end Sys2Proof.Machine

/-! The rules of 46_invalid.md: opcodes 8 and 13 (R160, R161) and a trap with another vector (R162) report the word and PC, and
nothing else changes. -/

namespace Sys2Proof.Machine

/-- An Invalid completes as `raise MalformedInstruction` of the word it carries (00_scope.md R15, 60_exceptions.md R174). -/
theorem exec_of_isInvalid {i : Instr} (hi : i.isInvalid = true) (s : State) :
    exec i s = .next (s.raiseMalformed (encode i)) := by
  cases i with
  | trapUnknown | rti | reserved13 => rfl
  | _ => exact absurd hi Bool.false_ne_true

/-- Settles O57: both opcodes decode to an Invalid that carries the word. -/
theorem reservedOpcodesReportAndContinue : Obligations.ReservedOpcodesReportAndContinue := by
  intro s w hop
  obtain ⟨-, hrti, hreserved, -⟩ := invalidExactlyReservedOrUnknownVector w
  obtain hop | hop := hop
  · rw [hrti hop]
    exact exec_of_isInvalid rfl s
  · rw [hreserved hop]
    exact exec_of_isInvalid rfl s

/-- Settles O58: the trap decodes to an Invalid that carries the word. -/
theorem unknownVectorReportsAndContinues : Obligations.UnknownVectorReportsAndContinues := by
  intro s w hop hvec
  obtain ⟨-, -, -, hunknown⟩ := invalidExactlyReservedOrUnknownVector w
  rw [hunknown hop (by omega)]
  exact exec_of_isInvalid rfl s

/-- Settles O59: the report of `raise MalformedInstruction` is the only change. -/
theorem invalidInstructionsOnlyReport : Obligations.InvalidInstructionsOnlyReport :=
  fun _ s hi _ => exec_of_isInvalid hi s

end Sys2Proof.Machine

/-! The rules of 60_exceptions.md on the host's side: who writes the console (R179), who reports (R163), and who takes input
(R183). Most are read off `exec_effect`; the word of a report and the absence of a read are told apart by instruction. -/

namespace Sys2Proof.Machine

/-- Reads write nothing to the host and leave the routine under way as it was. -/
@[simp] theorem State.afterReads_output (s : State) (as : List Word) :
    (s.afterReads as).console = s.console ∧ (s.afterReads as).diags = s.diags ∧ (s.afterReads as).printing = s.printing := by
  induction as generalizing s with
  | nil => exact ⟨rfl, rfl, rfl⟩
  | cons a as ih => simp [ih]

/-- A character read takes input and writes none of the host's outputs. -/
theorem readCharToR0_console {s t : State} (h : readCharToR0 s = .next t) : t.console = s.console := by
  obtain ⟨-, e⟩ | ⟨_, _, -, e⟩ := readCharToR0_cases s <;> rw [e] at h <;> cases h
  rfl

/-- GETC is the one instruction that reads a character and has no prompt. -/
theorem Instr.eq_trapGetc {i : Instr} (hreads : i.readsChar = true) (hwrites : i.writesConsole = false) : i = .trapGetc := by
  cases i with
  | trapGetc => rfl
  | trapIn => cases hwrites
  | _ => cases hreads

section
variable {i : Instr} {s t : State} (h : exec i s = .next t)
include h

/-- What stands on the console stays there. -/
theorem exec_console_appends : ∃ bs, t.console = s.console ++ bs := by
  cases exec_effect h with
  | character bs | halt bs => exact ⟨bs, rfl⟩
  | byte b => exact ⟨[b], rfl⟩
  | string kind n a =>
    obtain ⟨-, -, -, -, -, hconsole, -⟩ := stringLoop_frame kind n a s
    exact hconsole
  | result | transfer | store | report => exact ⟨[], by simp⟩

theorem exec_console_of_no_write (hi : i.writesConsole = false) : t.console = s.console := by
  cases exec_effect h with
  | character _ _ _ hreads =>
    obtain rfl := Instr.eq_trapGetc hreads hi
    exact readCharToR0_console h
  | byte _ hi' | halt _ hi' => subst hi'; cases hi
  | string _ _ _ hi' => obtain rfl | rfl := hi' <;> cases hi
  | result | transfer | store | report => simp

theorem exec_diags_of_not_invalid (hi : i.isInvalid = false) : t.diags = s.diags := by
  cases exec_effect h with
  | report _ hinvalid => simp [hi] at hinvalid
  | string kind n a =>
    obtain ⟨-, -, -, -, hdiags, -⟩ := stringLoop_frame kind n a s
    exact hdiags
  | result | transfer | store | character | byte | halt => simp

theorem exec_diags_of_invalid (hi : i.isInvalid = true) : t.diags = s.diags ++ [⟨encode i, s.pc⟩] := by
  rw [exec_of_isInvalid hi] at h; cases h
  exact s.raiseMalformed_diags _

/-- Without a read of memory there is no poll, and without a character read nothing else takes input (R183). -/
theorem exec_host_of_no_access (hmem : i.memoryUse = .none) (hchar : i.readsChar = false) : t.host = s.host := by
  cases i with
  | addReg | addImm | andReg | andImm | not | lea | jmp | jsr | jsrr | trapOut | trapHalt | trapUnknown | rti
  | reserved13 => cases h; rfl
  | br nzp off => cases h; cases branchTaken nzp s <;> rfl
  | ld | ldi | ldr | st | sti | str | trapPuts | trapPutsp => cases hmem
  | trapGetc | trapIn => cases hchar

theorem exec_printing_of_no_string (hputs : i ≠ .trapPuts) (hputsp : i ≠ .trapPutsp) : t.printing = s.printing := by
  cases exec_effect h with
  | string _ _ _ hi => exact absurd hi (not_or.2 ⟨hputs, hputsp⟩)
  | result | transfer | store | character | byte | halt | report => simp

end

/-- Settles O35, one rule for each clause. -/
theorem hostSideFrame : Obligations.HostSideFrame :=
  fun _ _ _ h => ⟨exec_console_appends h, exec_console_of_no_write h, exec_diags_of_not_invalid h, exec_diags_of_invalid h,
    exec_host_of_no_access h, exec_printing_of_no_string h⟩

end Sys2Proof.Machine

/-! The rules of 70_reset_and_hazards.md on images: which image loads and what it writes (R193), what a list of images leaves
(R195), and when a run starts (R190, R196). -/

namespace Sys2Proof.Machine

/-! ## The words of an image -/

@[simp] theorem length_bigEndianWords : ∀ bs : List Byte, (bigEndianWords bs).length = bs.length / 2
  | [] => rfl
  | [b] => (Nat.div_eq_of_lt (by simp)).symm
  | hi :: lo :: rest => by
    rw [bigEndianWords, List.length_cons, length_bigEndianWords rest]
    exact (Nat.add_div_right rest.length (by decide)).symm

/-- The i-th word is made of the bytes 2i and 2i + 1, the high byte first. -/
theorem getElem_bigEndianWords : ∀ (bs : List Byte) (i : Nat) (hi : i < (bigEndianWords bs).length),
    (bigEndianWords bs)[i] = bs.getD (2 * i) 0 ++ bs.getD (2 * i + 1) 0
  | _ :: _ :: _, 0, _ => rfl
  | _ :: _ :: rest, i + 1, hi => getElem_bigEndianWords rest i (Nat.lt_of_succ_lt_succ hi)

/-- The words an image holds after its origin (R193). -/
def imageWords (b : List Byte) : List Word := bigEndianWords (b.drop 2)

@[simp] theorem length_imageWords (b : List Byte) : (imageWords b).length = imageCount b := by
  simp [imageWords, imageCount]

theorem getElem_imageWords (b : List Byte) (i : Nat) (hi : i < (imageWords b).length) : (imageWords b)[i] = imageWord b i := by
  have hlow : 3 + 2 * i = 2 + (2 * i + 1) := by omega
  refine (getElem_bigEndianWords (b.drop 2) i hi).trans ?_
  simp [imageWord, hlow]

/-! ## The cells a load writes -/

theorem Memory.read_writeWords_outside (m : Memory) {origin a : Nat} (ws : List Word)
    (ha : a < origin ∨ origin + ws.length ≤ a) : (m.writeWords origin ws).read a = m.read a := by
  induction ws generalizing m origin with
  | nil => rfl
  | cons w ws ih =>
    rw [List.length_cons] at ha
    have hne : a ≠ origin := by omega
    rw [Memory.writeWords, ih _ (by omega), Memory.read_write, if_neg hne]

theorem Memory.read_writeWords_inside (m : Memory) (origin : Nat) (ws : List Word) (i : Nat) (hi : i < ws.length) :
    (m.writeWords origin ws).read (origin + i) = ws[i] := by
  induction ws generalizing m origin i with
  | nil => exact absurd hi (Nat.not_lt_zero i)
  | cons w ws ih =>
    rw [Memory.writeWords]
    cases i with
    | zero =>
      rw [Nat.add_zero origin, Memory.read_writeWords_outside _ ws (.inl (Nat.lt_add_one origin)), Memory.read_write, if_pos rfl,
        List.getElem_cons_zero]
    | succ i =>
      have hnext : origin + (i + 1) = origin + 1 + i := by omega
      rw [hnext]
      exact ih _ (origin + 1) i (Nat.lt_of_succ_lt_succ hi)

/-! ## One image -/

/-- `load_image` succeeds exactly on the images that meet R193's conditions, and writes the image's words from its origin. -/
theorem loadImage_ok_iff {m m' : Memory} {b : List Byte} :
    loadImage m b = .ok m' ↔ imageLoads b ∧ m' = m.writeWords (imageOrigin b) (imageWords b) := by
  match b with
  | [] | [_] => simp [loadImage, imageLoads]
  | hi :: lo :: rest =>
    have horigin : imageOrigin (hi :: lo :: rest) = (wordOfBytes hi lo).toNat := rfl
    have hcount : imageCount (hi :: lo :: rest) = rest.length / 2 := rfl
    have hwords : imageWords (hi :: lo :: rest) = bigEndianWords rest := rfl
    rw [loadImage, imageLoads, horigin, hcount, hwords, List.length_cons, List.length_cons]
    split
    next hodd => exact ⟨nofun, fun ⟨⟨_, _, _⟩, _⟩ => by omega⟩
    next heven =>
      split
      next hpast => exact ⟨nofun, fun ⟨⟨_, _, _⟩, _⟩ => by omega⟩
      next hfits =>
        have hloads : 2 ≤ rest.length + 1 + 1 ∧ (rest.length + 1 + 1) % 2 = 0 ∧
            (wordOfBytes hi lo).toNat + rest.length / 2 ≤ 0x10000 := by omega
        simp [hloads, eq_comm]

theorem loadImage_of_imageLoads (m : Memory) {b : List Byte} (h : imageLoads b) :
    loadImage m b = .ok (m.writeWords (imageOrigin b) (imageWords b)) :=
  loadImage_ok_iff.2 ⟨h, rfl⟩

/-- The image's words stand from its origin on, and every other cell is as it was (R193). -/
theorem read_of_loadImage {m m' : Memory} {b : List Byte} (h : loadImage m b = .ok m') :
    (∀ i, i < imageCount b → m'.read (imageOrigin b + i) = imageWord b i) ∧
      ∀ a, a < imageOrigin b ∨ imageOrigin b + imageCount b ≤ a → m'.read a = m.read a := by
  obtain ⟨-, rfl⟩ := loadImage_ok_iff.1 h
  refine ⟨fun i hi => ?_, fun a ha => m.read_writeWords_outside _ (by simpa using ha)⟩
  have hi' : i < (imageWords b).length := by simpa using hi
  rw [m.read_writeWords_inside _ _ i hi', getElem_imageWords]

theorem loadImage_keeps_wf {m m' : Memory} {b : List Byte} (h : loadImage m b = .ok m') (hwf : m.wf) : m'.wf := by
  obtain ⟨⟨-, -, hfits⟩, rfl⟩ := loadImage_ok_iff.1 h
  exact Memory.writeWords_keeps_wf _ hwf (by simpa using hfits)

/-- Settles O13: an image that meets R193's conditions loads, and `read_of_loadImage` says what it wrote. -/
theorem loadImagePlacesWordsAtOrigin : Obligations.LoadImagePlacesWordsAtOrigin := by
  intro m b hloads
  have hload := loadImage_of_imageLoads m hloads
  exact ⟨_, hload, read_of_loadImage hload⟩

/-! ## A list of images -/

theorem loadImages_cons_ok_iff {m m' : Memory} {b : List Byte} {images : List (List Byte)} :
    loadImages m (b :: images) = .ok m' ↔ ∃ m1, loadImage m b = .ok m1 ∧ loadImages m1 images = .ok m' := by
  rw [loadImages]
  cases loadImage m b <;> simp

/-- One more image is loaded into the memory the earlier ones leave (R195). -/
theorem loadImages_concat_ok {m m1 m2 : Memory} {images : List (List Byte)} {b : List Byte}
    (h : loadImages m images = .ok m1) (hb : loadImage m1 b = .ok m2) : loadImages m (images ++ [b]) = .ok m2 := by
  induction images generalizing m with
  | nil =>
    cases h
    exact loadImages_cons_ok_iff.2 ⟨m2, hb, rfl⟩
  | cons c images ih =>
    obtain ⟨mc, hc, hrest⟩ := loadImages_cons_ok_iff.1 h
    exact loadImages_cons_ok_iff.2 ⟨mc, hc, ih hrest⟩

/-- A list of images loads exactly when each of its images does, whatever the memory before (R196). -/
theorem exists_loadImages_ok_iff (m : Memory) (images : List (List Byte)) :
    (∃ m', loadImages m images = .ok m') ↔ ∀ b ∈ images, imageLoads b := by
  induction images generalizing m with
  | nil => exact ⟨fun _ => nofun, fun _ => ⟨m, rfl⟩⟩
  | cons b images ih =>
    rw [List.forall_mem_cons]
    constructor
    · rintro ⟨m', h⟩
      obtain ⟨m1, hb, hrest⟩ := loadImages_cons_ok_iff.1 h
      exact ⟨(loadImage_ok_iff.1 hb).1, (ih m1).1 ⟨m', hrest⟩⟩
    · rintro ⟨hb, himages⟩
      obtain ⟨m', hrest⟩ := (ih _).2 himages
      exact ⟨m', loadImages_cons_ok_iff.2 ⟨_, loadImage_of_imageLoads m hb, hrest⟩⟩

theorem loadImages_keeps_wf {m m' : Memory} {images : List (List Byte)} (h : loadImages m images = .ok m') (hwf : m.wf) :
    m'.wf := by
  induction images generalizing m with
  | nil =>
    cases h
    exact hwf
  | cons b images ih =>
    obtain ⟨m1, hb, hrest⟩ := loadImages_cons_ok_iff.1 h
    exact ih hrest (loadImage_keeps_wf hb hwf)

/-- Settles O14: the later image is loaded into what the earlier ones leave, as O13 says. -/
theorem laterImageReplacesEarlier : Obligations.LaterImageReplacesEarlier := by
  intro m m1 images b h hloads
  obtain ⟨m2, hb, hread⟩ := loadImagePlacesWordsAtOrigin m1 b hloads
  exact ⟨m2, loadImages_concat_ok h hb, hread⟩

/-! ## The state a run starts from -/

/-- A run starts from reset with every image loaded, and from nothing else (R190, R196). -/
theorem boot_ok_iff {images : List (List Byte)} {s : State} :
    boot images = .ok s ↔
      images ≠ [] ∧ ∃ m, loadImages State.reset.mem images = .ok m ∧ s = { State.reset with mem := m } := by
  cases images with
  | nil => simp [boot]
  | cons b images =>
    rw [boot]
    cases loadImages State.reset.mem (b :: images) <;> simp [eq_comm]

/-- Settles O12: but for its memory the state is the one after reset, and loading keeps the canonical form. -/
theorem bootedStateMeetsInvariant : Obligations.BootedStateMeetsInvariant := by
  intro images s h
  obtain ⟨-, m, hload, rfl⟩ := boot_ok_iff.1 h
  obtain ⟨⟨-, hcond, hhalted⟩, -⟩ := resetMeetsInvariant
  obtain ⟨hregs, -⟩ := resetValues
  exact ⟨hload, ⟨loadImages_keeps_wf hload State.reset_mem_wf, hcond, hhalted⟩, ⟨rfl, rfl⟩, rfl, rfl, hregs⟩

/-- Settles O15: a run starts exactly when the list, if there is one, loads. -/
theorem runStartsExactlyWhenEveryImageLoads : Obligations.RunStartsExactlyWhenEveryImageLoads := by
  intro images
  simp only [boot_ok_iff, ← exists_loadImages_ok_iff State.reset.mem]
  constructor
  · rintro ⟨_, hne, m, h, -⟩
    exact ⟨hne, m, h⟩
  · rintro ⟨hne, m, h⟩
    exact ⟨_, hne, m, h, rfl⟩

end Sys2Proof.Machine
